-- ==== Sys2Proof/Word.lean ====
section
/-!
DEFINITION. The words of ASB-KMD: command words, bytes, and the narrow values that travel in commands.
Widths: spec/00_scope.md R5, spec/10_state.md R10. Bit 0 is the least significant bit (R6).
-/
namespace Sys2Proof

/-- A sample, a write value, a button mask or the joystick latch: 8 bits (R5, R14, R18, R33). -/
abbrev Byte := BitVec 8

/-- A command word, 32 bits (R50). -/
abbrev CmdWord := BitVec 32

/-- The write cursor `IDX`, 10 bits (R12). -/
abbrev Cursor := BitVec 10

/-- The key-line value `K` of a matrix probe, 4 bits (R58). -/
abbrev KeyLines := BitVec 4

end Sys2Proof
end

