-- ==== Sys2Proof/Syntax.lean ====
section
/-!
DEFINITION. The thirteen operations of ASB-KMD, one constructor per row of spec/opcode_table.json, in the table's
order (spec/30_encoding.md R53). Operand widths are those of the formats (R51, R52).
-/
namespace Sys2Proof

/-- One operation with its operands (the spec says "operation" where others say "instruction", spec/00_scope.md §6). -/
inductive Instr where
  /-- sound-init (R70) -/
  | sndInit
  /-- load the routing mode and the melody flag (R71) -/
  | sndCfg (mode : BitVec 3) (mel : Bool)
  /-- the output-register write (R73) -/
  | sndWr (data : Byte)
  /-- the drain handshake (R77) -/
  | sndAck
  /-- read one sample of the store (R78) -/
  | sndRd (addr : BitVec 9)
  /-- load the speaker latch (R72) -/
  | spkLd (data : Byte)
  /-- load one sub-slot mask of a scan line, slots 0 to 7 (R91) -/
  | kbdLdm (slot : BitVec 3) (sub : BitVec 2) (mask : Byte)
  /-- load the mask of a single-key slot; `slot` is the slot number, 8 or 9 (R92, R61) -/
  | kbdLds (slot : BitVec 4) (mask : Byte)
  /-- load the multikey flag of a scan line, slots 0 to 7 (R93) -/
  | kbdLdf (slot : BitVec 3) (mk : Bool)
  /-- set the button bitmask (R90) -/
  | btnSet (btn : BitVec 10)
  /-- matrix probe with scan-line mask `sel` (R99) -/
  | kprobe (sel : Byte)
  /-- single-key probe A, slot 9 (R101) -/
  | kprobeA
  /-- single-key probe B, slot 8 (R102) -/
  | kprobeB
  deriving DecidableEq, Repr

end Sys2Proof
end

