-- ==== Sys2Proof/WellFormed.lean ====
section
/-!
DEFINITION. Which terms of `Instr` are operations of the block (spec/30_encoding.md R51, R54).
Every operand but one has exactly the width of its field, so each of its values is legal (R54); the slot number of
KBD_LDS is the one operand that can be wrong, since the 4-bit slot number of an `OP` = 8 word names a single-key
slot only at 8 and 9.
-/
namespace Sys2Proof

/-- The operation has an encoding: KBD_LDS names slot 8 or slot 9 (R92). -/
abbrev WellFormed (i : Instr) : Prop :=
  match i with
  | .sndInit => True
  | .sndCfg _ _ => True
  | .sndWr _ => True
  | .sndAck => True
  | .sndRd _ => True
  | .spkLd _ => True
  | .kbdLdm _ _ _ => True
  | .kbdLds slot _ => slot = 8#4 ∨ slot = 9#4
  | .kbdLdf _ _ => True
  | .btnSet _ => True
  | .kprobe _ => True
  | .kprobeA => True
  | .kprobeB => True

end Sys2Proof
end

