-- ==== Sys2Proof/Decode.lean ====
section
/-!
DEFINITION. From a 32-bit command word to an operation and back (spec/30_encoding.md R50 to R54, R60).
The decoder is the opcode map of R53 as a list of rows, each a mask and a pattern, tried as R60 says.
-/
namespace Sys2Proof

/-- Why a word is no operation (the classes of R54), or why bytes hold no word. -/
inductive Reject where
  /-- `OP` is 0x0, 0x7, 0xE or 0xF -/
  | reservedOpcode
  /-- `OP` = 0x8 with slot number 10 to 15, or `OP` = 0x9 with `W[19]` = 1 -/
  | reservedSlot
  /-- a 1 in a bit of the format that must be 0 -/
  | reservedBits
  /-- fewer than four bytes were given -/
  | truncated
  deriving DecidableEq, Repr

/-- The opcode `W[31:28]` (R50). -/
def opcodeOf (w : CmdWord) : BitVec 4 := w.extractLsb' 28 4

/-- The data byte `W[7:0]` of formats D, K and S (R51). -/
def dataField (w : CmdWord) : Byte := w.extractLsb' 0 8

/-- The sample-store address `W[8:0]` of format A (R51). -/
def addrField (w : CmdWord) : BitVec 9 := w.extractLsb' 0 9

/-- The button bitmask `W[9:0]` of format B (R51). -/
def btnField (w : CmdWord) : BitVec 10 := w.extractLsb' 0 10

/-- `MODEV`, `W[2:0]` of format C (R51). -/
def modeField (w : CmdWord) : BitVec 3 := w.extractLsb' 0 3

/-- `MELV`, `W[8]` of format C (R51). -/
def melField (w : CmdWord) : Bool := w.getLsbD 8

/-- `SLOT`, `W[18:16]` of formats K and F (R51). -/
def slotField (w : CmdWord) : BitVec 3 := w.extractLsb' 16 3

/-- `SUB`, `W[9:8]` of format K (R51). -/
def subField (w : CmdWord) : BitVec 2 := w.extractLsb' 8 2

/-- The slot number of format S, `8 + SLOT0` with `SLOT0` = `W[16]` (R51, R52). -/
def keySlotField (w : CmdWord) : BitVec 4 := if w.getLsbD 16 then 9#4 else 8#4

/-- `MK`, `W[0]` of format F (R51). -/
def mkField (w : CmdWord) : Bool := w.getLsbD 0

/-- One row of the opcode map: a word `W` selects it when `W & mask = pattern` (R53), and `build` assembles the
operands of its format (R51, R52). -/
structure Row where
  pattern : CmdWord
  mask : CmdWord
  build : CmdWord → Instr

/-- The word selects the row (R53). -/
abbrev Row.Selects (r : Row) (w : CmdWord) : Prop := w &&& r.mask = r.pattern

/-- The opcode map, in the order of R53. -/
def rows : List Row := [
  ⟨0x10000000#32, 0xFFFFFFFF#32, fun _ => .sndInit⟩,
  ⟨0x20000000#32, 0xFFFFFEF8#32, fun w => .sndCfg (modeField w) (melField w)⟩,
  ⟨0x30000000#32, 0xFFFFFF00#32, fun w => .sndWr (dataField w)⟩,
  ⟨0x40000000#32, 0xFFFFFFFF#32, fun _ => .sndAck⟩,
  ⟨0x50000000#32, 0xFFFFFE00#32, fun w => .sndRd (addrField w)⟩,
  ⟨0x60000000#32, 0xFFFFFF00#32, fun w => .spkLd (dataField w)⟩,
  ⟨0x80000000#32, 0xFFF8FC00#32, fun w => .kbdLdm (slotField w) (subField w) (dataField w)⟩,
  ⟨0x80080000#32, 0xFFFEFF00#32, fun w => .kbdLds (keySlotField w) (dataField w)⟩,
  ⟨0x90000000#32, 0xFFF8FFFE#32, fun w => .kbdLdf (slotField w) (mkField w)⟩,
  ⟨0xA0000000#32, 0xFFFFFC00#32, fun w => .btnSet (btnField w)⟩,
  ⟨0xB0000000#32, 0xFFFFFF00#32, fun w => .kprobe (dataField w)⟩,
  ⟨0xC0000000#32, 0xFFFFFFFF#32, fun _ => .kprobeA⟩,
  ⟨0xD0000000#32, 0xFFFFFFFF#32, fun _ => .kprobeB⟩]

/-- The class of R54 an illegal word falls under; read only for words that select no row. -/
def rejectReason (w : CmdWord) : Reject :=
  if opcodeOf w = 0x0#4 ∨ opcodeOf w = 0x7#4 ∨ opcodeOf w = 0xE#4 ∨ opcodeOf w = 0xF#4 then .reservedOpcode
  else if opcodeOf w = 0x8#4 ∧ 10 ≤ (w.extractLsb' 16 4).toNat then .reservedSlot
  else if opcodeOf w = 0x9#4 ∧ w.getLsbD 19 then .reservedSlot
  else .reservedBits

/-- The decoder, total on all 2^32 words (R60). -/
def decode (w : CmdWord) : Except Reject Instr :=
  match rows.find? (fun r => decide (r.Selects w)) with
  | some r => .ok (r.build w)
  | none => .error (rejectReason w)

/-- The command word of a well-formed operation, as the operation rules R70 to R102 write it. -/
def encode : Instr → CmdWord
  | .sndInit => 0x10000000#32
  | .sndCfg mode mel => 0x20000000#32 ||| (BitVec.ofBool mel).setWidth 32 <<< 8 ||| mode.setWidth 32
  | .sndWr data => 0x30000000#32 ||| data.setWidth 32
  | .sndAck => 0x40000000#32
  | .sndRd addr => 0x50000000#32 ||| addr.setWidth 32
  | .spkLd data => 0x60000000#32 ||| data.setWidth 32
  | .kbdLdm slot sub mask =>
    0x80000000#32 ||| slot.setWidth 32 <<< 16 ||| sub.setWidth 32 <<< 8 ||| mask.setWidth 32
  | .kbdLds slot mask => 0x80080000#32 ||| (slot - 8#4).setWidth 32 <<< 16 ||| mask.setWidth 32
  | .kbdLdf slot mk => 0x90000000#32 ||| slot.setWidth 32 <<< 16 ||| (BitVec.ofBool mk).setWidth 32
  | .btnSet btn => 0xA0000000#32 ||| btn.setWidth 32
  | .kprobe sel => 0xB0000000#32 ||| sel.setWidth 32
  | .kprobeA => 0xC0000000#32
  | .kprobeB => 0xD0000000#32

/-- A command word rendered as bytes, the most significant byte first (R33). -/
def bytesOfWord (w : CmdWord) : List Byte :=
  [w.extractLsb' 24 8, w.extractLsb' 16 8, w.extractLsb' 8 8, w.extractLsb' 0 8]

/-- The operation the first four bytes hold, most significant byte first (R33), and the bytes after it. -/
def decodeBytes : List Byte → Except Reject (Instr × List Byte)
  | b3 :: b2 :: b1 :: b0 :: rest =>
    match decode (b3 ++ b2 ++ b1 ++ b0) with
    | .ok i => .ok (i, rest)
    | .error r => .error r
  | _ => .error .truncated

/-- The word of a table row: bit 0 least significant, `nbits` bits given and every bit above them 0. -/
def tableWord (nbits w : Nat) : CmdWord := BitVec.ofNat 32 (w % 2 ^ nbits)

/-- What the decoder reads from a table row's word, for the host's check of the opcode table. -/
def decodeTableWord (nbits w : Nat) : Option Instr :=
  match decode (tableWord nbits w) with
  | .ok i => some i
  | .error _ => none

end Sys2Proof
end

