-- ==== Sys2Proof/Config.lean ====
section
/-!
DEFINITION. What this hardware fixes (spec/00_scope.md R5) and the values the spec leaves unspecified
(spec/10_state.md R24, spec/93_implementation_defined.md U4, U5), which have no body, so that nothing can evaluate them.
-/
namespace Sys2Proof

/-- The audio clock in Hz (R5); no rule depends on it (R146). -/
def Config.audioFrequency : Nat := 32768

/-- The refresh rate in Hz (R5); no rule depends on it (R146). -/
def Config.refreshRate : Nat := 128

/-- `C`, samples per refresh period: the length of the host's read window (R5). -/
def Config.C : Nat := 256

/-- `2C`, the length of the sample store (R5, R11). -/
def Config.storeSize : Nat := 2 * Config.C

/-- FREE VALUE (log entry 4, safe): the byte at `addr` of the sample store that nothing has written since the draw
numbered `draw`; draw 0 is `State.reset`, each SND_INIT and each power-on reset makes a new one (R24, U4). -/
opaque Config.freeSample (draw addr : Nat) : Byte

/-- FREE VALUE (log entry 5, safe): what the speaker latch holds after the power-on reset that made the draw numbered
`draw` (R14, R24, U5). -/
opaque Config.freeSpeaker (draw : Nat) : Byte

end Sys2Proof
end

