-- ==== Sys2Proof/Machine/State.lean ====
section
/-!
DEFINITION. The state of ASB-KMD (spec/10_state.md R10 to R20), what it holds after power-on reset (R24), and the
reasons a step of the model can stop.
-/
namespace Sys2Proof.Machine

/-- The sample store: the bytes written since it was last drawn, addresses strictly rising (`Memory.wf`, Ops.lean).
An address that is not listed has no written byte; what a read of it gives is `bufByte` (Ops.lean). -/
abbrev Memory := List Host.Cell

/-- A scan-line entry of the keyboard matrix table, slots 0 to 7 (R19). -/
structure Line where
  /-- the four sub-slot masks; a mask of 0 is an unused sub-slot -/
  m : Vector Byte 4
  /-- the multikey flag, the spec's `mk` -/
  multikey : Bool
  deriving DecidableEq, Repr

/-- The entry with four masks of 0 and flag 0: a line not enumerated in the table (R19). -/
def Line.absent : Line := { m := Vector.replicate 4 0#8, multikey := false }

/-- The two faults the block itself records and goes on after (spec/60_exceptions.md R111); they end an operation in
a NEXT state. -/
inductive BlockFault where
  /-- code 0, `FAULT[0]` -/
  | audioOverrun
  /-- code 1, `FAULT[1]` -/
  | illegalCommand
  deriving DecidableEq, Repr

/-- What an operation gives back to the agent that issued it (spec/30_encoding.md R55). -/
inductive Response where
  /-- SND_RD: the sample -/
  | sample (v : Byte)
  /-- KPROBE: the key-line value `K` -/
  | keyLines (k : KeyLines)
  /-- KPROBEA, KPROBEB: the probe's bit -/
  | keyBit (b : BitVec 1)
  deriving DecidableEq, Repr

/-- What reaches the block from outside. -/
inductive Input where
  /-- an agent presents a command word on the port (spec/00_scope.md R4) -/
  | command (w : CmdWord)
  /-- the platform applies power-on reset, an input outside the port (spec/70_reset_and_hazards.md R131) -/
  | powerOnReset
  deriving DecidableEq, Repr

/-- Why a step of the MODEL stops the machine. In no run from `State.reset` does either happen. -/
inductive Fault where
  /-- Raised by `memRead` and `memWrite` (SND_WR with `IDX` from 513 to 1023, values R12 calls unreachable): the
  address is not one of the 512 of space BUF (R31). Safe: the machine stops where the spec gives no behaviour. -/
  | noSuchAddress (a : Nat)
  /-- Raised by `setKey` for a KBD_LDS term whose slot is neither 8 nor 9, which no word decodes to (R54).
  Safe: `step` never meets it. -/
  | noSuchSlot (slot : Nat)
  deriving DecidableEq, Repr

/-- Why an instruction has no meaning in the model. -/
inductive Refusal where
  /-- Raised by an arm of `exec` whose instruction is not modelled; no arm is (safe). -/
  | notModelled (mnemonic : String)
  deriving DecidableEq, Repr

/-- The registers of the block (R10), then three fields of the model's own: what is still to be taken from outside,
what the last operation answered, and the number of draws of unspecified contents. -/
structure State where
  /-- BUF, the sample store (R11) -/
  buf : Memory
  /-- IDX, the write cursor (R12) -/
  idx : Cursor
  /-- DRAINED, the drain handshake flag (R13) -/
  drained : Bool
  /-- SPK, the speaker latch (R14) -/
  spk : Byte
  /-- MODE, the routing mode (R15) -/
  mode : BitVec 3
  /-- MEL, the melody flag (R16) -/
  mel : Bool
  /-- BTN, the button bitmask (R17) -/
  btn : BitVec 10
  /-- JOY, the joystick latch (R18) -/
  joy : Byte
  /-- KMT slots 0 to 7, the scan-line entries (R19) -/
  lines : Vector Line 8
  /-- KMT[8].k, the key of probe B (R19, R32) -/
  key8 : Byte
  /-- KMT[9].k, the key of probe A (R19, R32) -/
  key9 : Byte
  /-- FAULT, bit 0 AudioOverrun, bit 1 IllegalCommand (R20) -/
  fault : BitVec 2
  /-- the model's own (log entry 1): what the agents and the platform have presented, oldest first, in the one total
  order of spec/20_memory.md R36 -/
  inputs : List Input
  /-- the model's own (log entry 3): the response of the last operation, if it gave one (R55) -/
  response : Option Response
  /-- the model's own (log entry 4): how many draws of unspecified contents there have been -/
  draws : Nat
  deriving DecidableEq, Repr

/-- The block right after power-on reset, with nothing presented yet (R24, R131). BUF has no written byte and SPK is
a free value: both are "unspecified" there. -/
def State.reset : State where
  buf := []
  idx := 0#10
  drained := false
  spk := Config.freeSpeaker 0
  mode := 0#3
  mel := false
  btn := 0#10
  joy := 0#8
  lines := Vector.replicate 8 Line.absent
  key8 := 0#8
  key9 := 0#8
  fault := 0#2
  inputs := []
  response := none
  draws := 0

end Sys2Proof.Machine
end

