-- ==== Sys2Proof/Machine/Ops.lean ====
section
/-!
DEFINITION. The named operations over the sample store, the keyboard matrix table, the fault record, the response
and the inputs; power-on reset; the partial reset of the audio half.
-/
namespace Sys2Proof.Machine

/-! ## The sample store as data -/

/-- The byte written at `a`, if one is listed. -/
def Memory.read : Memory → Nat → Option Byte
  | [], _ => none
  | (k, v) :: m, a => if k = a then some v else Memory.read m a

/-- Lists `v` at `a`, in place of what was listed there, keeping the addresses rising. -/
def Memory.write : Memory → Nat → Byte → Memory
  | [], a, v => [(a, v)]
  | (k, w) :: m, a, v =>
    if a < k then (a, v) :: (k, w) :: m
    else if a = k then (a, v) :: m
    else (k, w) :: Memory.write m a v

/-- The canonical form: addresses strictly rising, and all of them in the store (R31). An unlisted address holds no
written byte, so no entry can equal what an unlisted address reads as. -/
abbrev Memory.wf (m : Memory) : Prop :=
  m.Pairwise (fun c d => c.1 < d.1) ∧ ∀ c ∈ m, c.1 < Config.storeSize

/-- The byte of BUF at `a`: the last one written, or the free value of the present draw where nothing has been
written since power-on reset or SND_INIT (R11, R35, R36). -/
def bufByte (s : State) (a : Nat) : Byte :=
  match Memory.read s.buf a with
  | some v => v
  | none => Config.freeSample s.draws a

/-- `MemRead(a, 1)` (R8, R33); addresses from 512 up do not exist (R31). -/
def memRead (a : Nat) (s : State) : Except Fault Byte :=
  if a < Config.storeSize then .ok (bufByte s a) else .error (.noSuchAddress a)

/-- `MemWrite(a, 1, v)` (R8, R33); addresses from 512 up do not exist (R31). -/
def memWrite (a : Nat) (v : Byte) (s : State) : Except Fault State :=
  if a < Config.storeSize then .ok { s with buf := Memory.write s.buf a v } else .error (.noSuchAddress a)

/-! ## The keyboard matrix table (R19, R30) -/

/-- The entry of scan line `x`. -/
def lineAt (s : State) (x : BitVec 3) : Line := s.lines[x.toNat]'x.isLt

/-- The mask `m[j]` of an entry. -/
def subMask (l : Line) (j : BitVec 2) : Byte := l.m[j.toNat]'j.isLt

/-- `KMT[slot].m[sub] <- mask` (R91). -/
def setMask (slot : BitVec 3) (sub : BitVec 2) (mask : Byte) (s : State) : State :=
  let l := lineAt s slot
  { s with lines := s.lines.set slot.toNat { l with m := l.m.set sub.toNat mask sub.isLt } slot.isLt }

/-- `KMT[slot].mk <- mk` (R93). -/
def setMultikey (slot : BitVec 3) (mk : Bool) (s : State) : State :=
  { s with lines := s.lines.set slot.toNat { lineAt s slot with multikey := mk } slot.isLt }

/-- `KMT[slot].k <- mask` for the two single-key slots (R92); no other slot has a `k` (R19). -/
def setKey (slot : BitVec 4) (mask : Byte) (s : State) : Except Fault State :=
  if slot = 8#4 then .ok { s with key8 := mask }
  else if slot = 9#4 then .ok { s with key9 := mask }
  else .error (.noSuchSlot slot.toNat)

/-! ## Ending an operation -/

/-- The operation ends and gives `r` to its agent; `none` where it has no response (R55). -/
def respond (r : Option Response) (s : State) : State := { s with response := r }

/-- The bit of `FAULT` a block fault sets (R20, R111). -/
def BlockFault.bit : BlockFault → BitVec 2
  | .audioOverrun => 0b01#2
  | .illegalCommand => 0b10#2

/-- `raise F`, taking a fault (R112): the `FAULT` bit is set, the operation ends without a response, and nothing
else happens. There is no handler and no return (R115). -/
def raise (f : BlockFault) (s : State) : State :=
  respond none { s with fault := s.fault ||| f.bit }

/-- The outcome of an operation whose steps answered `r`. -/
def finish (r : Except Fault State) : Host.Outcome State Fault Refusal :=
  match r with
  | .ok s => .next s
  | .error f => .fault f

/-! ## Reset -/

/-- The effect of sound-init: cursor and flag cleared, every byte of BUF drawn afresh (R70, R132). -/
def soundInit (s : State) : State :=
  { s with idx := 0#10, drained := false, buf := [], draws := s.draws + 1 }

/-- Power-on reset of a block that has run (R24, R131): the reset values, with BUF and SPK drawn afresh. What has
been presented and not yet taken stays presented. -/
def powerOn (s : State) : State :=
  { State.reset with
    draws := s.draws + 1, spk := Config.freeSpeaker (s.draws + 1), inputs := s.inputs }

/-! ## The port -/

/-- Takes the oldest input (R36); `none` when nothing is presented. -/
def takeInput (s : State) : Option (Input × State) :=
  match s.inputs with
  | [] => none
  | x :: rest => some (x, { s with inputs := rest })

/-- An agent presents the word `w` so that it is the next one taken. -/
def presentNext (w : CmdWord) (s : State) : State :=
  { s with inputs := .command w :: s.inputs }

end Sys2Proof.Machine
end

