-- ==== Sys2Proof/Machine/Operands.lean ====
section
/-!
DEFINITION. Every operand form of the operations: the addressing forms of the sample store (spec/40_audio.md R79),
the routing of a write value to an emitted byte (R75), the button names (spec/30_encoding.md R56), and what a probe
tests a scan line with (spec/41_keyboard.md R94 to R98).
-/
namespace Sys2Proof.Machine

/-! ## Addressing forms of BUF (R79) -/

/-- Form (b), block move at distance `C`: `BUF[i] <- BUF[C + i]` for `n` bytes from `i` on, ascending (R74). -/
def tailCopy : Nat → Nat → State → Except Fault State
  | 0, _, s => .ok s
  | n + 1, i, s =>
    match memRead (Config.C + i) s with
    | .error f => .error f
    | .ok v =>
      match memWrite i v s with
      | .error f => .error f
      | .ok s' => tailCopy n (i + 1) s'

/-- Form (a), cursor indexed with post-increment: `BUF[IDX] <- e`, then `IDX <- IDX + 1` (R76). -/
def storeAtCursor (e : Byte) (s : State) : Except Fault State :=
  match memWrite s.idx.toNat e s with
  | .error f => .error f
  | .ok s' => .ok { s' with idx := s.idx + 1#10 }

/-! ## Routing (R75) -/

/-- The rows of the routing table (R15, R75). -/
inductive Routing where
  | unset | r1 | r2 | r1r2 | r1s1 | s1r1
  deriving DecidableEq, Repr

/-- The row a mode code selects; codes 0, 6 and 7 select the default row (R15). -/
def routingOf (mode : BitVec 3) : Routing :=
  if mode = 1#3 then .r1
  else if mode = 2#3 then .r2
  else if mode = 3#3 then .r1r2
  else if mode = 4#3 then .r1s1
  else if mode = 5#3 then .s1r1
  else .unset

/-- `Route(DATA)` with the melody flag, the mode and the latch it reads (R75). -/
def route (mel : Bool) (mode : BitVec 3) (prev data : Byte) : Byte :=
  if mel then data
  else
    match routingOf mode with
    | .r1 => data &&& 0x01#8
    | .r2 => data >>> 1 &&& 0x01#8
    | .r1r2 => data &&& 0x03#8
    | .r1s1 => prev &&& 0xFE#8 ||| data &&& 0x01#8
    | .s1r1 => prev &&& 0xFD#8 ||| data <<< 1 &&& 0x02#8
    | .unset => data &&& 0x01#8

/-- The byte a SND_WR of `data` emits in state `s` (R59, R75). -/
def emitted (data : Byte) (s : State) : Byte := route s.mel s.mode s.spk data

/-! ## Buttons (R56) -/

/-- The ten buttons. -/
inductive Button where
  | left | up | right | down | a | b | time | game | pause | power
  deriving DecidableEq, Repr

/-- The bit of a button in `BTN` (R56). -/
def Button.bit : Button → Nat
  | .left => 0 | .up => 1 | .right => 2 | .down => 3 | .a => 4
  | .b => 5 | .time => 6 | .game => 7 | .pause => 8 | .power => 9

/-- The mask of a button in `BTN` (R56). -/
def Button.mask (x : Button) : BitVec 10 := 1#10 <<< x.bit

/-- `Pressed()`, `BTN[7:0]`: PAUSE and POWER do not count (R94). -/
def pressed (s : State) : Byte := s.btn.extractLsb' 0 8

/-- The four joystick directions (R95). -/
inductive Direction where
  | left | up | right | down
  deriving DecidableEq, Repr

/-- The mask of a direction (R56, R95). -/
def Direction.mask : Direction → Byte
  | .left => 0x01#8
  | .up => 0x02#8
  | .right => 0x04#8
  | .down => 0x08#8

/-- `Opp` (R95). -/
def Direction.opp : Direction → Direction
  | .left => .right
  | .up => .down
  | .right => .left
  | .down => .up

/-- `IsCardinal(p)`, with the direction where `p` is exactly one (R95). -/
def cardinal? (p : Byte) : Option Direction :=
  if p = 0x01#8 then some .left
  else if p = 0x02#8 then some .up
  else if p = 0x04#8 then some .right
  else if p = 0x08#8 then some .down
  else none

/-! ## What a probe does with one scan line -/

/-- `FourDir(x)`: the union of the four masks is exactly the four direction bits (R96). -/
def fourDir (l : Line) : Bool :=
  subMask l 0 ||| subMask l 1 ||| subMask l 2 ||| subMask l 3 == 0x0F#8

/-- The resolved mask of a newly pressed direction: the direction, with what the latch held except its opposite (R96). -/
def resolve (joy : Byte) (d : Direction) : Byte := joy &&& ~~~d.opp.mask ||| d.mask

/-- `Arbitrate(x, p)`: the mask a multikey line is tested with, and the latch after it (R96). -/
def arbitrate (l : Line) (p joy : Byte) : Byte × Byte :=
  match cardinal? p with
  | some d => if fourDir l then (resolve joy d, resolve joy d) else (p, joy)
  | none => (p, joy)

/-- The 4-bit value with bit `j` equal to `b j` (R58). -/
def nibble (b : BitVec 2 → Bool) : KeyLines :=
  BitVec.ofBool (b 3) ++ BitVec.ofBool (b 2) ++ BitVec.ofBool (b 1) ++ BitVec.ofBool (b 0)

/-- The equality test of a multikey line with its possibly resolved mask `q` (R97). -/
def matchLines (l : Line) (q : Byte) : KeyLines := nibble fun j => q == subMask l j

/-- `SingleKey(x, p)`: the AND test of the four sub-slots (R98). -/
def singleKey (l : Line) (p : Byte) : KeyLines := nibble fun j => p &&& subMask l j != 0#8

/-- The contribution of one driven line, and the latch after it: `MultiKey` or `SingleKey` by its flag (R97, R98, R99). -/
def lineKeys (l : Line) (p joy : Byte) : KeyLines × Byte :=
  if l.multikey then (matchLines l (arbitrate l p joy).1, (arbitrate l p joy).2)
  else (singleKey l p, joy)

/-- The scan lines in the ascending order of the loop of R99. -/
def scanOrder : List (BitVec 3) := [0, 1, 2, 3, 4, 5, 6, 7]

/-- One pass of the loop of R99: line `x` contributes when `S[x]` = 1. -/
def scanLine (s : State) (sel p : Byte) (acc : KeyLines × Byte) (x : BitVec 3) : KeyLines × Byte :=
  if sel.getLsbD x.toNat then
    (acc.1 ||| (lineKeys (lineAt s x) p acc.2).1, (lineKeys (lineAt s x) p acc.2).2)
  else acc

/-- The result `K` of a probe with some button pressed, and the latch after it (R99, R100). -/
def matrixScan (s : State) (sel p : Byte) : KeyLines × Byte :=
  let scan := scanOrder.foldl (scanLine s sel p) (0#4, s.joy)
  if sel = 0#8 then (scan.1 ||| singleKey (lineAt s 1) p, scan.2) else scan

/-- The bit a single-key probe reads for the key `k`: pulled up, 0 only on exact equality (R101, R102). -/
def keyBit (k p : Byte) : BitVec 1 :=
  if p = 0#8 then 1#1 else if p = k then 0#1 else 1#1

end Sys2Proof.Machine
end

