-- ==== Sys2Proof/Machine/Flags.lean ====
section
/-!
DEFINITION. The block's only status flag, DRAINED (spec/10_state.md R13): setting it (SND_ACK, R77), and the atomic
test-and-clear with the cursor shift and the tail copy that a SND_WR begins with (spec/20_memory.md R37,
spec/40_audio.md R74).
-/
namespace Sys2Proof.Machine

/-- `DRAINED <- 1` (R77). -/
def setDrained (s : State) : State := { s with drained := true }

/-- The cursor after a handshake: `IDX - C` in unbounded integers, clamped at 0 (R74). -/
def shiftCursor (idx : Cursor) : Cursor :=
  let t : Int := (idx.toNat : Int) - (Config.C : Int)
  if t < 0 then 0#10 else BitVec.ofNat 10 t.toNat

/-- `Handshake()` (R74). -/
def handshake (s : State) : Except Fault State :=
  if s.drained then
    tailCopy (shiftCursor s.idx).toNat 0 { s with drained := false, idx := shiftCursor s.idx }
  else .ok s

end Sys2Proof.Machine
end

