-- ==== Sys2Proof/Machine/Audio.lean ====
section
/-!
DEFINITION. The meanings of the six audio operations (spec/40_audio.md).
-/
namespace Sys2Proof.Machine

/-- SND_INIT (R70). -/
def execSndInit (s : State) : Host.Outcome State Fault Refusal :=
  .next (respond none (soundInit s))

/-- SND_CFG (R71). -/
def execSndCfg (mode : BitVec 3) (mel : Bool) (s : State) : Host.Outcome State Fault Refusal :=
  .next (respond none { s with mode := mode, mel := mel })

/-- SPK_LD (R72). -/
def execSpkLd (data : Byte) (s : State) : Host.Outcome State Fault Refusal :=
  .next (respond none { s with spk := data })

/-- `Store(e)`, step 3 of SND_WR: at `IDX` = 512 the overrun is taken and nothing is stored (R76). -/
def storeSample (e : Byte) (s : State) : Except Fault State :=
  if s.idx.toNat = Config.storeSize then .ok (raise .audioOverrun s)
  else
    match storeAtCursor e s with
    | .error f => .error f
    | .ok s' => .ok (respond none { s' with spk := e })

/-- SND_WR (R73): `Handshake`, then `Route`, then `Store`. -/
def execSndWr (data : Byte) (s : State) : Host.Outcome State Fault Refusal :=
  match handshake s with
  | .error f => .fault f
  | .ok s' => finish (storeSample (emitted data s') s')

/-- SND_ACK (R77). -/
def execSndAck (s : State) : Host.Outcome State Fault Refusal :=
  .next (respond none (setDrained s))

/-- SND_RD (R78), the absolute addressing form (R79 (c)). -/
def execSndRd (addr : BitVec 9) (s : State) : Host.Outcome State Fault Refusal :=
  match memRead addr.toNat s with
  | .error f => .fault f
  | .ok v => .next (respond (some (.sample v)) s)

end Sys2Proof.Machine
end

