-- ==== Sys2Proof/Machine/Keyboard.lean ====
section
/-!
DEFINITION. The meanings of the seven keyboard operations (spec/41_keyboard.md). None of them writes DRAINED and none
raises a block fault.
-/
namespace Sys2Proof.Machine

/-- BTN_SET (R90). -/
def execBtnSet (btn : BitVec 10) (s : State) : Host.Outcome State Fault Refusal :=
  .next (respond none { s with btn := btn })

/-- KBD_LDM (R91). -/
def execKbdLdm (slot : BitVec 3) (sub : BitVec 2) (mask : Byte) (s : State) : Host.Outcome State Fault Refusal :=
  .next (respond none (setMask slot sub mask s))

/-- KBD_LDS (R92). -/
def execKbdLds (slot : BitVec 4) (mask : Byte) (s : State) : Host.Outcome State Fault Refusal :=
  match setKey slot mask s with
  | .error f => .fault f
  | .ok s' => .next (respond none s')

/-- KBD_LDF (R93). -/
def execKbdLdf (slot : BitVec 3) (mk : Bool) (s : State) : Host.Outcome State Fault Refusal :=
  .next (respond none (setMultikey slot mk s))

/-- KPROBE (R99, R100): with nothing pressed `K` is 0 and the latch is not touched. -/
def execKprobe (sel : Byte) (s : State) : Host.Outcome State Fault Refusal :=
  if pressed s = 0#8 then .next (respond (some (.keyLines 0#4)) s)
  else
    let r := matrixScan s sel (pressed s)
    .next (respond (some (.keyLines r.1)) { s with joy := r.2 })

/-- KPROBEA, slot 9 (R101). -/
def execKprobeA (s : State) : Host.Outcome State Fault Refusal :=
  .next (respond (some (.keyBit (keyBit s.key9 (pressed s)))) s)

/-- KPROBEB, slot 8 (R102). -/
def execKprobeB (s : State) : Host.Outcome State Fault Refusal :=
  .next (respond (some (.keyBit (keyBit s.key8 (pressed s)))) s)

end Sys2Proof.Machine
end

