-- ==== Sys2Proof/Machine/Dispatch.lean ====
section
/-!
DEFINITION. One arm per operation (spec/30_encoding.md R53), each one call of its meaning.
-/
namespace Sys2Proof.Machine

def exec (i : Instr) (s : State) : Host.Outcome State Fault Refusal :=
  match i with
  | .sndInit => Sys2Proof.Machine.execSndInit s
  | .sndCfg mode mel => Sys2Proof.Machine.execSndCfg mode mel s
  | .sndWr data => Sys2Proof.Machine.execSndWr data s
  | .sndAck => Sys2Proof.Machine.execSndAck s
  | .sndRd addr => Sys2Proof.Machine.execSndRd addr s
  | .spkLd data => Sys2Proof.Machine.execSpkLd data s
  | .kbdLdm slot sub mask => Sys2Proof.Machine.execKbdLdm slot sub mask s
  | .kbdLds slot mask => Sys2Proof.Machine.execKbdLds slot mask s
  | .kbdLdf slot mk => Sys2Proof.Machine.execKbdLdf slot mk s
  | .btnSet btn => Sys2Proof.Machine.execBtnSet btn s
  | .kprobe sel => Sys2Proof.Machine.execKprobe sel s
  | .kprobeA => Sys2Proof.Machine.execKprobeA s
  | .kprobeB => Sys2Proof.Machine.execKprobeB s

end Sys2Proof.Machine
end

