-- ==== Sys2Proof/Machine/Step.lean ====
section
/-!
DEFINITION. One step of the machine: the block takes the oldest input and serves it to completion
(spec/00_scope.md R4, spec/20_memory.md R36). There is no program counter (spec/10_state.md R22): the agents decide
which command comes next.
-/
namespace Sys2Proof.Machine

/-- With nothing presented the block is idle and keeps all its state (R122). A power-on reset takes effect (R131); a
command word that selects an operation runs it (R60); any other raises `IllegalCommand` (R54). -/
def step (s : State) : Host.Outcome State Fault Refusal :=
  match takeInput s with
  | none => .next s
  | some (.powerOnReset, s') => .next (powerOn s')
  | some (.command w, s') =>
    match decode w with
    | .ok i => exec i s'
    | .error _ => .next (raise .illegalCommand s')

/-- `s` with a table row's word presented as the next command (log entry 1: an agent presents it). -/
def State.withFetchWord (s : State) (nbits w : Nat) : State := presentNext (tableWord nbits w) s

end Sys2Proof.Machine
end

