-- ==== Sys2Proof/Machine/Trace.lean ====
section
/-!
DEFINITION. Trace syntax (spec/30_encoding.md R61) and the three pseudo-operations as the exact sequences they stand
for (R62). No step of the machine reads anything here.
-/
namespace Sys2Proof.Machine

/-- A 1-bit operand as R61 writes it. -/
def bitText (b : Bool) : String := if b then "1" else "0"

/-- The line of an operation: its mnemonic and its operands, comma separated, numbers in decimal (R61). -/
def lineText : Instr → String
  | .sndInit => "SND_INIT"
  | .sndCfg mode mel => "SND_CFG " ++ toString mode.toNat ++ ", " ++ bitText mel
  | .sndWr data => "SND_WR " ++ toString data.toNat
  | .sndAck => "SND_ACK"
  | .sndRd addr => "SND_RD " ++ toString addr.toNat
  | .spkLd data => "SPK_LD " ++ toString data.toNat
  | .kbdLdm slot sub mask =>
    "KBD_LDM " ++ toString slot.toNat ++ ", " ++ toString sub.toNat ++ ", " ++ toString mask.toNat
  | .kbdLds slot mask => "KBD_LDS " ++ toString slot.toNat ++ ", " ++ toString mask.toNat
  | .kbdLdf slot mk => "KBD_LDF " ++ toString slot.toNat ++ ", " ++ bitText mk
  | .btnSet btn => "BTN_SET " ++ toString btn.toNat
  | .kprobe sel => "KPROBE " ++ toString sel.toNat
  | .kprobeA => "KPROBEA"
  | .kprobeB => "KPROBEB"

/-- A response as R61 writes it, after `->`. -/
def responseText : Response → String
  | .sample v => " -> " ++ toString v.toNat
  | .keyLines k => " -> " ++ toString k.toNat
  | .keyBit b => " -> " ++ toString b.toNat

/-- `KBD_LINE slot, m0, m1, m2, m3, mk` (R62). -/
def kbdLine (slot : BitVec 3) (m0 m1 m2 m3 : Byte) (mk : Bool) : List Instr :=
  [.kbdLdm slot 0 m0, .kbdLdm slot 1 m1, .kbdLdm slot 2 m2, .kbdLdm slot 3 m3, .kbdLdf slot mk]

/-- `DRAIN`: a read of each address of the host window in order, then one acknowledge (R40, R62). -/
def drain : List Instr :=
  (List.range Config.C).map (fun a => .sndRd (BitVec.ofNat 9 a)) ++ [.sndAck]

/-- `SND_WRN n, f`: `n` writes, the `i`-th of `f i` (R62). -/
def sndWrn (n : Nat) (f : Nat → Byte) : List Instr := (List.range n).map (fun i => .sndWr (f i))

end Sys2Proof.Machine
end

