-- ==== Sys2Proof/Safety.lean ====
section
/-!
DEFINITION. What claims about a run are made of: who may issue what by convention, which words are illegal, what a
good state is, the invariants of the block, runs of operations, the obligations of the agents, and the sample stream.
-/
namespace Sys2Proof.Machine

/-! ## The agents' convention (spec/00_scope.md R3, spec/60_exceptions.md R118: kept by the system, checked by nothing) -/

/-- The four agents (R3). -/
inductive Agent where
  | cpuCore | audioSink | buttonSource | configurator
  deriving DecidableEq, Repr

/-- Who issues an operation (R3, R53). -/
def agentOf : Instr → Agent
  | .sndInit => .configurator
  | .sndCfg _ _ => .configurator
  | .sndWr _ => .cpuCore
  | .sndAck => .audioSink
  | .sndRd _ => .audioSink
  | .spkLd _ => .cpuCore
  | .kbdLdm _ _ _ => .configurator
  | .kbdLds _ _ => .configurator
  | .kbdLdf _ _ => .configurator
  | .btnSet _ => .buttonSource
  | .kprobe _ => .cpuCore
  | .kprobeA => .cpuCore
  | .kprobeB => .cpuCore

/-! ## Illegal words, spelled by fields (R51, R54) -/

/-- The field `W[hi:lo]` as a number (R6). -/
def fieldOf (w : CmdWord) (hi lo : Nat) : Nat := (w.extractLsb' lo (hi + 1 - lo)).toNat

/-- The classes of R54 for a word with opcode `op` and slot number `slot`, with the must-be-0 bits of each format of R51. -/
abbrev IllegalClass (w : CmdWord) (op slot : Nat) : Prop :=
  (op = 0x0 ∨ op = 0x7 ∨ op = 0xE ∨ op = 0xF) ∨
  ((op = 0x1 ∨ op = 0x4 ∨ op = 0xC ∨ op = 0xD) ∧ fieldOf w 27 0 ≠ 0) ∨
  ((op = 0x3 ∨ op = 0x6 ∨ op = 0xB) ∧ fieldOf w 27 8 ≠ 0) ∨
  (op = 0x5 ∧ fieldOf w 27 9 ≠ 0) ∨
  (op = 0xA ∧ fieldOf w 27 10 ≠ 0) ∨
  (op = 0x2 ∧ (fieldOf w 27 9 ≠ 0 ∨ fieldOf w 7 3 ≠ 0)) ∨
  (op = 0x8 ∧ (fieldOf w 27 20 ≠ 0 ∨ 10 ≤ slot ∨ (slot < 8 ∧ fieldOf w 15 10 ≠ 0) ∨
    ((slot = 8 ∨ slot = 9) ∧ fieldOf w 15 8 ≠ 0))) ∨
  (op = 0x9 ∧ (fieldOf w 27 20 ≠ 0 ∨ 8 ≤ slot ∨ fieldOf w 15 1 ≠ 0))

/-- The word is illegal (R54): `OP` is `W[31:28]`, the slot number is `W[19:16]`. -/
abbrev IllegalWord (w : CmdWord) : Prop := IllegalClass w (fieldOf w 31 28) (fieldOf w 19 16)

/-! ## Good states and invariants -/

/-- No fault has been recorded: the premise of every claim that a run went well (R116). -/
abbrev NoFault (s : State) : Prop := s.fault = 0#2

/-- What R104 says of the latch: bits 7 to 4 are 0, LEFT and RIGHT are not both set, nor UP and DOWN. -/
abbrev JoyLegal (joy : Byte) : Prop :=
  joy &&& 0xF0#8 = 0#8 ∧ joy &&& 0x05#8 ≠ 0x05#8 ∧ joy &&& 0x0A#8 ≠ 0x0A#8

/-- The invariant of the block: the store is in its canonical form, the cursor is at most `2C` (R12, R83 (a)), and the
latch is legal (R104). -/
structure Inv (s : State) : Prop where
  mem : Memory.wf s.buf
  cursor : s.idx.toNat ≤ 512
  latch : JoyLegal s.joy

/-- Every byte below the cursor has been written since BUF was last drawn. -/
def Filled (s : State) : Prop := ∀ a, a < s.idx.toNat → (Memory.read s.buf a).isSome

/-- The two states agree on the keyboard half (R10). -/
structure SameKeyboard (s t : State) : Prop where
  btn : t.btn = s.btn
  joy : t.joy = s.joy
  lines : t.lines = s.lines
  key8 : t.key8 = s.key8
  key9 : t.key9 = s.key9

/-- The two states agree on the audio half (R10), BUF read byte by byte. -/
structure SameAudio (s t : State) : Prop where
  buf : ∀ a, bufByte t a = bufByte s a
  idx : t.idx = s.idx
  drained : t.drained = s.drained
  spk : t.spk = s.spk
  mode : t.mode = s.mode
  mel : t.mel = s.mel

/-- Two states agree on the fields that are not registers of the block, the response apart. -/
structure SamePort (s t : State) : Prop where
  inputs : t.inputs = s.inputs
  draws : t.draws = s.draws

/-! ## The matrix probe in closed form (R94 to R99): no loop, every line tested against the latch the probe found -/

/-- `p` is exactly one direction bit (R95). -/
abbrev IsCardinal (p : Byte) : Prop := p = 0x01#8 ∨ p = 0x02#8 ∨ p = 0x04#8 ∨ p = 0x08#8

/-- The mask of the opposite direction, for a cardinal `p` (R95). -/
def oppositeMask (p : Byte) : Byte :=
  if p = 0x01#8 then 0x04#8 else if p = 0x04#8 then 0x01#8 else if p = 0x02#8 then 0x08#8 else 0x02#8

/-- The union of the line's four masks is exactly the four direction bits (R96). -/
abbrev FourDirections (l : Line) : Prop :=
  subMask l 0 ||| subMask l 1 ||| subMask l 2 ||| subMask l 3 = 0x0F#8

/-- The mask a multikey line `x` is tested with in state `s` (R96). -/
def testedMask (s : State) (x : BitVec 3) : Byte :=
  if FourDirections (lineAt s x) ∧ IsCardinal (pressed s) then
    s.joy &&& ~~~oppositeMask (pressed s) ||| pressed s
  else pressed s

/-- Sub-slot `j` of line `x` matches (R97, R98). -/
abbrev SubMatches (s : State) (x : BitVec 3) (j : BitVec 2) : Prop :=
  if (lineAt s x).multikey then testedMask s x = subMask (lineAt s x) j
  else pressed s &&& subMask (lineAt s x) j ≠ 0#8

/-- Some driven line of the probe moves the latch (R96, R99). -/
abbrev MovesLatch (s : State) (sel : Byte) : Prop :=
  IsCardinal (pressed s) ∧
    ∃ x : BitVec 3, sel.getLsbD x.toNat = true ∧ (lineAt s x).multikey = true ∧ FourDirections (lineAt s x)

/-! ## Runs of operations -/

/-- The state an operation answers, if it answers a next state. -/
def nextOf (o : Host.Outcome State Fault Refusal) : Option State :=
  match o with
  | .next t => some t
  | .fault _ => none
  | .refused _ => none

/-- The operations of `ops` run one after another, in the one total order of R36. -/
def runOps : List Instr → State → Option State
  | [], s => some s
  | i :: ops, s =>
    match nextOf (exec i s) with
    | some t => runOps ops t
    | none => none

/-- The drain deadline (R83 (b), R134): among any `C` consecutive SND_WR since the last SND_INIT at least one begins with
DRAINED = 1. `n` counts the SND_WR without it since the last one with it, or since SND_INIT. -/
def KeepsDeadline : List Instr → Nat → State → Prop
  | [], _, _ => True
  | i :: ops, n, s =>
    let n' := match i with
      | .sndWr _ => if s.drained then 0 else n + 1
      | .sndInit => 0
      | _ => n
    n' < 256 ∧ ∀ t, exec i s = .next t → KeepsDeadline ops n' t

/-! ## The sample stream (R84) -/

/-- The emitted bytes of all non-faulting SND_WR since the last SND_INIT, and how many drains have been taken by a
SND_WR since then (R84). -/
structure SampleStream where
  bytes : List Byte
  drains : Nat
  deriving DecidableEq, Repr

/-- The stream after operation `i` has run, paced, in state `s`. -/
def streamAfter (i : Instr) (s : State) (g : SampleStream) : SampleStream :=
  match i with
  | .sndInit => ⟨[], 0⟩
  | .sndWr data =>
    ⟨g.bytes ++ [emitted data s], if s.drained then g.drains + 1 else g.drains⟩
  | _ => g

/-- The premises of R84 on operation `i` issued in state `s`: the reads of a drain run while `IDX` is at least `C` and
after a SND_WR has taken the drain before, an acknowledge comes while `IDX` is at least `C`, and no SND_WR overruns. -/
def Paced (i : Instr) (s : State) : Prop :=
  match i with
  | .sndRd addr => addr.toNat < 256 → 256 ≤ s.idx.toNat ∧ s.drained = false
  | .sndAck => 256 ≤ s.idx.toNat
  | .sndWr _ => s.drained = true ∨ s.idx.toNat < 512
  | _ => True

/-- What the reads of a paced run answer: `StreamRun ops s g t h` says that the operations take state `s` and stream `g`
to state `t` and stream `h`, every one of them paced. -/
inductive StreamRun : List Instr → State → SampleStream → State → SampleStream → Prop where
  | done (s : State) (g : SampleStream) : StreamRun [] s g s g
  | op (i : Instr) (ops : List Instr) (s t u : State) (g h : SampleStream) :
    Paced i s → exec i s = .next t → StreamRun ops t (streamAfter i s g) u h → StreamRun (i :: ops) s g u h

end Sys2Proof.Machine
end

