-- ==== Sys2Proof/Certificates/Slice0/Obligations.lean ====
section
/-!
DEFINITION. The statements for the provers. Each docstring names the rules of spec/ it formalises.
-/
open Sys2Proof Sys2Proof.Machine

/-! ## Encoding -/

/-- R51, R52, R53, R60: every well-formed operation is read back from its command word, at every operand value. -/
def Obligations.DecodeOfEncodeIsTheOperation : Prop :=
  ∀ i : Instr, WellFormed i → decode (encode i) = .ok i

/-- R51, R53, R60: every legal word has one meaning: it is the word of the well-formed operation it decodes to. -/
def Obligations.EncodeOfDecodeIsTheWord : Prop :=
  ∀ (w : CmdWord) (i : Instr), decode w = .ok i → WellFormed i ∧ encode i = w

/-- R53: no two rows of the opcode map match the same word. -/
def Obligations.NoWordMatchesTwoRows : Prop :=
  ∀ (w : CmdWord) (m n : Nat) (hm : m < rows.length) (hn : n < rows.length),
    rows[m].Selects w → rows[n].Selects w → m = n

/-- R54: the decoder rejects exactly the words R54 lists, and such a word, taken from the port, sets FAULT[1], changes
nothing else and gives no response. That the word leaves `inputs` and that `response` becomes `none` are the model's
form of taking a command and of giving no response (log entries 1 and 3). -/
def Obligations.IllegalWordsRaiseIllegalCommand : Prop :=
  (∀ w : CmdWord, (∃ r, decode w = .error r) ↔ IllegalWord w) ∧
  ∀ (s : State) (w : CmdWord) (rest : List Input), s.inputs = .command w :: rest → IllegalWord w →
    step s = .next { s with inputs := rest, fault := s.fault ||| 0b10#2, response := none }

/-- R64: the worked encodings decode to the lines they stand beside, and the words listed as illegal do not decode. -/
def Obligations.WorkedEncodingsDecode : Prop :=
  decode 0x10000000#32 = .ok .sndInit ∧ decode 0x20000003#32 = .ok (.sndCfg 3#3 false) ∧
  decode 0x20000100#32 = .ok (.sndCfg 0#3 true) ∧ decode 0x20000005#32 = .ok (.sndCfg 5#3 false) ∧
  decode 0x30000003#32 = .ok (.sndWr 0x03#8) ∧ decode 0x300000FF#32 = .ok (.sndWr 0xFF#8) ∧
  decode 0x40000000#32 = .ok .sndAck ∧ decode 0x50000000#32 = .ok (.sndRd 0#9) ∧
  decode 0x500001FF#32 = .ok (.sndRd 511#9) ∧ decode 0x60000002#32 = .ok (.spkLd 0x02#8) ∧
  decode 0x80010209#32 = .ok (.kbdLdm 1#3 2#2 0x09#8) ∧ decode 0x80070380#32 = .ok (.kbdLdm 7#3 3#2 0x80#8) ∧
  decode 0x80080080#32 = .ok (.kbdLds 8#4 0x80#8) ∧ decode 0x80090040#32 = .ok (.kbdLds 9#4 0x40#8) ∧
  decode 0x90010001#32 = .ok (.kbdLdf 1#3 true) ∧ decode 0xA0000011#32 = .ok (.btnSet 0x011#10) ∧
  decode 0xA0000300#32 = .ok (.btnSet 0x300#10) ∧ decode 0xB0000002#32 = .ok (.kprobe 0x02#8) ∧
  decode 0xB0000000#32 = .ok (.kprobe 0x00#8) ∧ decode 0xC0000000#32 = .ok .kprobeA ∧
  decode 0xD0000000#32 = .ok .kprobeB ∧
  ∀ w ∈ [0x00000000#32, 0x10000001#32, 0x30000100#32, 0x20000008#32, 0x800A0000#32, 0x80080100#32, 0x90080000#32,
    0x70000000#32, 0xE0000000#32, 0xF0000000#32], ∀ i, decode w ≠ .ok i

/-- R33: a command word rendered as bytes, most significant first, decodes as the word does, and the bytes after it are
left over. -/
def Obligations.RenderedBytesDecodeAsTheWord : Prop :=
  ∀ (w : CmdWord) (rest : List Byte) (i : Instr),
    decodeBytes (bytesOfWord w ++ rest) = .ok (i, rest) ↔ decode w = .ok i

/-! ## Steps -/

/-- R4, R60: a command word that decodes is taken from the port and its operation is executed. -/
def Obligations.StepRunsTheDecodedOperation : Prop :=
  ∀ (s : State) (w : CmdWord) (rest : List Input) (i : Instr), s.inputs = .command w :: rest → decode w = .ok i →
    step s = exec i { s with inputs := rest }

/-- R122: with nothing presented the block is idle and keeps all its state. The list of inputs is the model's own
(log entry 1). -/
def Obligations.IdleStepKeepsTheState : Prop :=
  ∀ s : State, s.inputs = [] → step s = .next s

/-- R24, R131: what a power-on reset leaves. BUF and SPK are unspecified there, so they are the free values of a new
draw here (log entries 4 and 5), and what stays presented is the model's own (log entry 2). -/
def Obligations.PowerOnResetLeavesTheStatedValues : Prop :=
  ∀ (s : State) (rest : List Input), s.inputs = .powerOnReset :: rest → ∃ t, step s = .next t ∧
    t.idx = 0#10 ∧ t.drained = false ∧ t.mode = 0#3 ∧ t.mel = false ∧ t.btn = 0#10 ∧ t.joy = 0#8 ∧
    (∀ x : BitVec 3, (lineAt t x).multikey = false ∧ ∀ j : BitVec 2, subMask (lineAt t x) j = 0#8) ∧
    t.key8 = 0#8 ∧ t.key9 = 0#8 ∧ t.fault = 0#2 ∧
    (∀ a, bufByte t a = Config.freeSample (s.draws + 1) a) ∧ t.spk = Config.freeSpeaker (s.draws + 1) ∧
    t.inputs = rest ∧ t.response = none

/-- R24: the values the spec states for the block right after power-on reset. -/
def Obligations.ResetStateHasTheStatedValues : Prop :=
  State.reset.idx = 0#10 ∧ State.reset.drained = false ∧ State.reset.mode = 0#3 ∧ State.reset.mel = false ∧
  State.reset.btn = 0#10 ∧ State.reset.joy = 0#8 ∧ State.reset.key8 = 0#8 ∧ State.reset.key9 = 0#8 ∧
  State.reset.fault = 0#2 ∧
  ∀ x : BitVec 3, (lineAt State.reset x).multikey = false ∧ ∀ j : BitVec 2, subMask (lineAt State.reset x) j = 0#8

/-! ## Audio operations -/

/-- R70: SND_INIT clears the cursor and the flag and keeps everything else but BUF, which is unspecified after it. -/
def Obligations.SndInitClearsCursorAndFlag : Prop :=
  ∀ s : State, ∃ t, exec .sndInit s = .next t ∧ t.idx = 0#10 ∧ t.drained = false ∧
    t.spk = s.spk ∧ t.mode = s.mode ∧ t.mel = s.mel ∧ SameKeyboard s t ∧ t.fault = s.fault ∧
    t.inputs = s.inputs ∧ t.response = none

/-- R11, R24, U4: after SND_INIT every byte of BUF is a value nothing constrains, of a draw not made before. The free
value and the count of draws are the model's (log entry 4). -/
def Obligations.SndInitDrawsTheStoreAfresh : Prop :=
  ∀ s : State, ∃ t, exec .sndInit s = .next t ∧ t.draws = s.draws + 1 ∧
    ∀ a, bufByte t a = Config.freeSample (s.draws + 1) a

/-- R71. -/
def Obligations.SndCfgLoadsModeAndMelody : Prop :=
  ∀ (mode : BitVec 3) (mel : Bool) (s : State),
    exec (.sndCfg mode mel) s = .next { s with mode := mode, mel := mel, response := none }

/-- R72. -/
def Obligations.SpkLdLoadsTheLatch : Prop :=
  ∀ (data : Byte) (s : State), exec (.spkLd data) s = .next { s with spk := data, response := none }

/-- R77: SND_ACK sets the flag and nothing else, and a second one changes nothing. -/
def Obligations.SndAckSetsTheFlag : Prop :=
  ∀ s : State, ∃ t, exec .sndAck s = .next t ∧ t = { s with drained := true, response := none } ∧
    exec .sndAck t = .next t

/-- R78: SND_RD answers the byte at its address, for every address, and changes no state. -/
def Obligations.SndRdAnswersTheByte : Prop :=
  ∀ (addr : BitVec 9) (s : State),
    exec (.sndRd addr) s = .next { s with response := some (.sample (bufByte s addr.toNat)) }

/-- R76, with no drain to take: the emitted byte is stored at the cursor, the cursor moves on by one, the speaker latch
takes the byte, and every other byte of BUF and every other register is as before. With the cursor at 512 nothing is
stored, FAULT[0] is set, and nothing else changes. -/
def Obligations.SndWrStoresAtTheCursorOrOverruns : Prop :=
  ∀ (data : Byte) (s : State), s.drained = false →
    (s.idx.toNat < 512 → ∃ t, exec (.sndWr data) s = .next t ∧
      bufByte t s.idx.toNat = emitted data s ∧ (∀ a, a ≠ s.idx.toNat → bufByte t a = bufByte s a) ∧
      t.idx.toNat = s.idx.toNat + 1 ∧ t.spk = emitted data s ∧ t.drained = false ∧
      t.mode = s.mode ∧ t.mel = s.mel ∧ SameKeyboard s t ∧ t.fault = s.fault ∧ SamePort s t ∧ t.response = none) ∧
    (s.idx.toNat = 512 →
      exec (.sndWr data) s = .next { s with fault := s.fault ||| 0b01#2, response := none })

/-- R74, R80: a SND_WR that finds the flag set clears it, shifts the cursor by 256 with a clamp at 0, moves the tail to the
start, then stores the emitted byte after it; every other byte of BUF and every other register is as before. -/
def Obligations.SndWrTakesTheDrainAndKeepsTheTail : Prop :=
  ∀ (data : Byte) (s : State), s.drained = true → s.idx.toNat ≤ 512 → ∃ t, exec (.sndWr data) s = .next t ∧
    t.drained = false ∧ t.idx.toNat = s.idx.toNat - 256 + 1 ∧
    (∀ a, a < s.idx.toNat - 256 → bufByte t a = bufByte s (256 + a)) ∧
    bufByte t (s.idx.toNat - 256) = emitted data s ∧
    (∀ a, s.idx.toNat - 256 < a → bufByte t a = bufByte s a) ∧
    t.spk = emitted data s ∧ t.mode = s.mode ∧ t.mel = s.mel ∧ SameKeyboard s t ∧ t.fault = s.fault ∧
    SamePort s t ∧ t.response = none

/-- R75: the byte a SND_WR stores, and leaves in the speaker latch, is that of the routing table, row by row. -/
def Obligations.SndWrEmitsByTheRoutingTable : Prop :=
  ∀ (data : Byte) (s : State), s.idx.toNat < 512 ∨ (s.idx.toNat = 512 ∧ s.drained = true) →
    ∃ t, exec (.sndWr data) s = .next t ∧ bufByte t (t.idx.toNat - 1) = t.spk ∧
      t.spk =
        if s.mel = true then data
        else if s.mode = 1#3 then data &&& 0x01#8
        else if s.mode = 2#3 then (data >>> 1) &&& 0x01#8
        else if s.mode = 3#3 then data &&& 0x03#8
        else if s.mode = 4#3 then (s.spk &&& 0xFE#8) ||| (data &&& 0x01#8)
        else if s.mode = 5#3 then (s.spk &&& 0xFD#8) ||| ((data <<< 1) &&& 0x02#8)
        else data &&& 0x01#8

/-- R12, R31: a cursor above 512, which R12 calls unreachable, would address a byte that does not exist; the model stops
there (log entry 7). -/
def Obligations.SndWrStopsOutsideTheStore : Prop :=
  ∀ (data : Byte) (s : State), 512 < s.idx.toNat → ∃ a, 512 ≤ a ∧ exec (.sndWr data) s = .fault (.noSuchAddress a)

/-- R36 (a): the byte a SND_WR stored at an address is the one a SND_RD of that address answers next. -/
def Obligations.SndRdAnswersTheLastStoredByte : Prop :=
  ∀ (data : Byte) (addr : BitVec 9) (s t : State), s.drained = false → s.idx.toNat = addr.toNat →
    exec (.sndWr data) s = .next t →
    exec (.sndRd addr) t = .next { t with response := some (.sample (emitted data s)) }

/-- R16, R75, R76: with MEL = 1 neither MODE nor SPK is read. From any other mode and latch a SND_WR answers the same next
state, the new latch included; only MODE, and the latch where the overrun leaves it as it was, keep their other values. -/
def Obligations.MelodyIgnoresModeAndLatch : Prop :=
  ∀ (data p : Byte) (m : BitVec 3) (s t : State), s.mel = true → exec (.sndWr data) s = .next t →
    exec (.sndWr data) { s with mode := m, spk := p } =
      .next { t with mode := m, spk := if s.drained = false ∧ s.idx.toNat = 512 then p else t.spk }

/-- R81: under a fixed configuration the latch bits a SND_WR does not supply stay those of the last SPK_LD, whatever was
written since; in the other modes the latch is not read. -/
def Obligations.LatchWriteIsInvisibleUnderAFixedMode : Prop :=
  ∀ (ops : List Instr) (s t : State), (∀ i ∈ ops, (∀ d, i ≠ .spkLd d) ∧ ∀ m e, i ≠ .sndCfg m e) →
    runOps ops s = some t → ∀ data : Byte,
    (s.mel = false → s.mode = 4#3 → emitted data t = (s.spk &&& 0xFE#8) ||| (data &&& 0x01#8)) ∧
    (s.mel = false → s.mode = 5#3 → emitted data t = (s.spk &&& 0xFD#8) ||| ((data <<< 1) &&& 0x02#8)) ∧
    (s.mel = true ∨ (s.mode ≠ 4#3 ∧ s.mode ≠ 5#3) → ∀ p, emitted data { t with spk := p } = emitted data t)

/-- R13, R36 (b): after any operation the flag is set exactly if the operation is SND_ACK, or it was set before and the
operation is neither SND_WR nor SND_INIT. -/
def Obligations.DrainedFollowsTheLastAudioEvent : Prop :=
  ∀ (i : Instr) (s t : State), exec i s = .next t →
    t.drained = match i with
      | .sndAck => true
      | .sndWr _ => false
      | .sndInit => false
      | _ => s.drained

/-- R83: the cursor is at most 512 along every run that starts so, and a run from an empty store that keeps the drain
deadline completes with no fault raised. -/
def Obligations.DrainDeadlinePreventsOverrun : Prop :=
  (∀ (ops : List Instr) (s t : State), s.idx.toNat ≤ 512 → runOps ops s = some t → t.idx.toNat ≤ 512) ∧
  ∀ (ops : List Instr) (s : State), s.idx = 0#10 → s.drained = false → NoFault s → (∀ i ∈ ops, WellFormed i) →
    KeepsDeadline ops 0 s → ∃ t, runOps ops s = some t ∧ NoFault t

/-- R134: from an empty store with no SND_ACK, up to 512 SND_WR run without a fault, and the 513th overruns. -/
def Obligations.FiveHundredTwelveWritesFitWithoutADrain : Prop :=
  ∀ (ds : List Byte) (s : State), s.idx = 0#10 → s.drained = false → ds.length ≤ 512 →
    ∃ t, runOps (ds.map .sndWr) s = some t ∧ t.idx.toNat = ds.length ∧ t.fault = s.fault ∧
      (ds.length = 512 → ∀ data : Byte,
        exec (.sndWr data) t = .next { t with fault := t.fault ||| 0b01#2, response := none })

/-- R84: along a paced run from an empty store, the reads of the next drain answer exactly the emitted bytes that follow
those of the drains taken so far. -/
def Obligations.DrainsConcatenateToTheEmittedStream : Prop :=
  ∀ (ops : List Instr) (s t : State) (h : SampleStream), s.idx = 0#10 → s.drained = false →
    StreamRun ops s ⟨[], 0⟩ t h → 256 ≤ t.idx.toNat → t.drained = false →
    ∀ addr : BitVec 9, addr.toNat < 256 → ∃ e, h.bytes[h.drains * 256 + addr.toNat]? = some e ∧
      exec (.sndRd addr) t = .next { t with response := some (.sample e) }

/-- R40, R62: the pseudo-operation DRAIN sets the flag and changes nothing else. -/
def Obligations.DrainOnlySetsTheFlag : Prop :=
  ∀ s : State, runOps drain s = some { s with drained := true, response := none }

/-! ## Keyboard operations -/

/-- R90. -/
def Obligations.BtnSetLoadsTheMask : Prop :=
  ∀ (btn : BitVec 10) (s : State), exec (.btnSet btn) s = .next { s with btn := btn, response := none }

/-- R91: that one mask changes, every other mask, every flag and every other register is as before. -/
def Obligations.KbdLdmLoadsOneMask : Prop :=
  ∀ (slot : BitVec 3) (sub : BitVec 2) (mask : Byte) (s : State), ∃ t, exec (.kbdLdm slot sub mask) s = .next t ∧
    (∀ (x : BitVec 3) (j : BitVec 2),
      subMask (lineAt t x) j = if x = slot ∧ j = sub then mask else subMask (lineAt s x) j) ∧
    (∀ x : BitVec 3, (lineAt t x).multikey = (lineAt s x).multikey) ∧
    t.btn = s.btn ∧ t.joy = s.joy ∧ t.key8 = s.key8 ∧ t.key9 = s.key9 ∧ SameAudio s t ∧ t.fault = s.fault ∧
    SamePort s t ∧ t.response = none

/-- R92: slot 8 and slot 9 each take their mask. -/
def Obligations.KbdLdsLoadsItsKey : Prop :=
  ∀ (mask : Byte) (s : State),
    exec (.kbdLds 8#4 mask) s = .next { s with key8 := mask, response := none } ∧
    exec (.kbdLds 9#4 mask) s = .next { s with key9 := mask, response := none }

/-- R54, R92: a slot number with no encoding stops the model (log entry 8); no word decodes to it. -/
def Obligations.KbdLdsStopsOnAnotherSlot : Prop :=
  ∀ (slot : BitVec 4) (mask : Byte) (s : State), slot ≠ 8#4 → slot ≠ 9#4 →
    exec (.kbdLds slot mask) s = .fault (.noSuchSlot slot.toNat) ∧ ∀ w, decode w ≠ .ok (.kbdLds slot mask)

/-- R93: that one flag changes, every mask, every other flag and every other register is as before. -/
def Obligations.KbdLdfLoadsOneFlag : Prop :=
  ∀ (slot : BitVec 3) (mk : Bool) (s : State), ∃ t, exec (.kbdLdf slot mk) s = .next t ∧
    (∀ x : BitVec 3, (lineAt t x).multikey = if x = slot then mk else (lineAt s x).multikey) ∧
    (∀ (x : BitVec 3) (j : BitVec 2), subMask (lineAt t x) j = subMask (lineAt s x) j) ∧
    t.btn = s.btn ∧ t.joy = s.joy ∧ t.key8 = s.key8 ∧ t.key9 = s.key9 ∧ SameAudio s t ∧ t.fault = s.fault ∧
    SamePort s t ∧ t.response = none

/-- R62: the pseudo-operation KBD_LINE loads the whole entry of its slot and no other entry. -/
def Obligations.KbdLineLoadsTheWholeEntry : Prop :=
  ∀ (slot : BitVec 3) (m0 m1 m2 m3 : Byte) (mk : Bool) (s : State), ∃ t,
    runOps (kbdLine slot m0 m1 m2 m3 mk) s = some t ∧
    subMask (lineAt t slot) 0 = m0 ∧ subMask (lineAt t slot) 1 = m1 ∧ subMask (lineAt t slot) 2 = m2 ∧
    subMask (lineAt t slot) 3 = m3 ∧ (lineAt t slot).multikey = mk ∧
    (∀ x, x ≠ slot → lineAt t x = lineAt s x) ∧ t = { s with lines := t.lines, response := none }

/-- R94, R99: with none of the eight buttons pressed KPROBE answers 0 and touches nothing, the latch included. -/
def Obligations.KprobeWithNothingPressedAnswersZero : Prop :=
  ∀ (sel : Byte) (s : State), s.btn.extractLsb' 0 8 = 0#8 →
    exec (.kprobe sel) s = .next { s with response := some (.keyLines 0#4) }

/-- R96 to R99: with a button pressed and a line driven, bit `j` of K is set exactly when sub-slot `j` of some driven line
matches, and the latch moves exactly when some driven line arbitrates; nothing else changes. -/
def Obligations.KprobeAnswersTheMatrix : Prop :=
  ∀ (sel : Byte) (s : State), pressed s ≠ 0#8 → sel ≠ 0#8 → ∃ (t : State) (k : KeyLines),
    exec (.kprobe sel) s = .next t ∧ t = { s with joy := t.joy, response := some (.keyLines k) } ∧
    (∀ j : BitVec 2, k.getLsbD j.toNat = true ↔ ∃ x : BitVec 3, sel.getLsbD x.toNat = true ∧ SubMatches s x j) ∧
    (MovesLatch s sel → t.joy = s.joy &&& ~~~oppositeMask (pressed s) ||| pressed s) ∧
    (¬ MovesLatch s sel → t.joy = s.joy)

/-- R100: with no line driven, K is slot 1's four masks tested by AND, whatever its multikey flag and whatever is pressed,
and the latch is not touched. -/
def Obligations.KprobeFallbackTestsSlotOne : Prop :=
  ∀ s : State, ∃ k : KeyLines, exec (.kprobe 0#8) s = .next { s with response := some (.keyLines k) } ∧
    ∀ j : BitVec 2, k.getLsbD j.toNat = true ↔ pressed s &&& subMask (lineAt s 1) j ≠ 0#8

/-- R101: equality with the key of slot 9, pulled up. -/
def Obligations.KprobeAReadsSlotNine : Prop :=
  ∀ s : State, exec .kprobeA s = .next { s with response := some (.keyBit
    (if s.btn.extractLsb' 0 8 = 0#8 then 1#1 else if s.btn.extractLsb' 0 8 = s.key9 then 0#1 else 1#1)) }

/-- R102: equality with the key of slot 8, pulled up. -/
def Obligations.KprobeBReadsSlotEight : Prop :=
  ∀ s : State, exec .kprobeB s = .next { s with response := some (.keyBit
    (if s.btn.extractLsb' 0 8 = 0#8 then 1#1 else if s.btn.extractLsb' 0 8 = s.key8 then 0#1 else 1#1)) }

/-- R103: a sub-slot that is 0 in every line tested never sets its bit, and a line whose four masks are 0 does not move
the latch. -/
def Obligations.UnusedSubSlotsContributeNothing : Prop :=
  (∀ (sel : Byte) (j : BitVec 2) (s t : State) (k : KeyLines),
    (∀ x : BitVec 3, sel.getLsbD x.toNat = true ∨ (sel = 0#8 ∧ x = 1#3) → subMask (lineAt s x) j = 0#8) →
    exec (.kprobe sel) s = .next t → t.response = some (.keyLines k) → k.getLsbD j.toNat = false) ∧
  ∀ (sel : Byte) (s : State),
    (∀ x : BitVec 3, sel.getLsbD x.toNat = true ∨ (sel = 0#8 ∧ x = 1#3) → ∀ j : BitVec 2, subMask (lineAt s x) j = 0#8) →
    exec (.kprobe sel) s = .next { s with response := some (.keyLines 0#4) }

/-- R104: the latch is legal at reset and after every step from a legal one, an axis that holds a direction keeps one until
power-on reset, and a probe leaves the latch or makes it the pressed direction with the former bit of the other axis. -/
def Obligations.LatchStaysLegal : Prop :=
  JoyLegal State.reset.joy ∧
  (∀ s t : State, JoyLegal s.joy → step s = .next t → JoyLegal t.joy) ∧
  (∀ (i : Instr) (s t : State), exec i s = .next t →
    (s.joy &&& 0x05#8 ≠ 0#8 → t.joy &&& 0x05#8 ≠ 0#8) ∧ (s.joy &&& 0x0A#8 ≠ 0#8 → t.joy &&& 0x0A#8 ≠ 0#8)) ∧
  ∀ (sel : Byte) (s t : State), JoyLegal s.joy → exec (.kprobe sel) s = .next t →
    t.joy = s.joy ∨ (IsCardinal (pressed s) ∧
      t.joy = pressed s ||| (s.joy &&& if pressed s &&& 0x05#8 ≠ 0#8 then 0x0A#8 else 0x05#8))

/-- R106: a probe repeated at once answers the same and leaves the same state. -/
def Obligations.ProbesAreIdempotent : Prop :=
  ∀ (i : Instr) (s t : State), (∃ sel, i = .kprobe sel) ∨ i = .kprobeA ∨ i = .kprobeB →
    exec i s = .next t → exec i t = .next t

/-- R17, R94: no operation reads the PAUSE and POWER bits: changing them changes nothing but themselves. -/
def Obligations.PauseAndPowerAreNeverRead : Prop :=
  ∀ (i : Instr) (b : BitVec 10) (s t : State), b.extractLsb' 0 8 = s.btn.extractLsb' 0 8 → exec i s = .next t →
    ∃ b', exec i { s with btn := b } = .next { t with btn := b' } ∧ b'.extractLsb' 0 8 = t.btn.extractLsb' 0 8

/-! ## The whole machine -/

/-- R10: each register changes only by the operations its row names (the frame of every operation). -/
def Obligations.RegistersChangeOnlyByTheirOperations : Prop :=
  ∀ (i : Instr) (s t : State), exec i s = .next t →
    ((match i with | .sndWr _ => False | .sndInit => False | _ => True) →
      (∀ a, bufByte t a = bufByte s a) ∧ t.idx = s.idx) ∧
    ((match i with | .sndWr _ => False | .sndInit => False | .sndAck => False | _ => True) → t.drained = s.drained) ∧
    ((match i with | .sndWr _ => False | .spkLd _ => False | _ => True) → t.spk = s.spk) ∧
    ((match i with | .sndCfg _ _ => False | _ => True) → t.mode = s.mode ∧ t.mel = s.mel) ∧
    ((match i with | .btnSet _ => False | _ => True) → t.btn = s.btn) ∧
    ((match i with | .kprobe _ => False | _ => True) → t.joy = s.joy) ∧
    ((match i with | .kbdLdm _ _ _ => False | .kbdLdf _ _ => False | _ => True) → t.lines = s.lines) ∧
    ((match i with | .kbdLds _ _ => False | _ => True) → t.key8 = s.key8 ∧ t.key9 = s.key9) ∧
    ((match i with | .sndWr _ => False | _ => True) → t.fault = s.fault) ∧
    ((match i with | .sndInit => False | _ => True) → t.draws = s.draws) ∧ t.inputs = s.inputs

/-- R10: the two halves share nothing: each half after an operation, and what the operation answers, depends on that half
before it alone. -/
def Obligations.HalvesDoNotInfluenceEachOther : Prop :=
  ∀ (i : Instr) (s s' t t' : State), exec i s = .next t → exec i s' = .next t' →
    (SameKeyboard s s' → SameKeyboard t t' ∧
      ((match i with | .kprobe _ => True | .kprobeA => True | .kprobeB => True | _ => False) →
        t'.response = t.response)) ∧
    (SameAudio s s' → s'.draws = s.draws → SameAudio t t' ∧
      ((match i with | .sndRd _ => True | _ => False) → t'.response = t.response))

/-- R55: the four operations that have a response give one of their kind, the nine others give none. -/
def Obligations.FourOperationsRespond : Prop :=
  ∀ (i : Instr) (s t : State), exec i s = .next t →
    match i with
    | .sndRd _ => ∃ v, t.response = some (.sample v)
    | .kprobe _ => ∃ k, t.response = some (.keyLines k)
    | .kprobeA => ∃ b, t.response = some (.keyBit b)
    | .kprobeB => ∃ b, t.response = some (.keyBit b)
    | _ => t.response = none

/-- R23, R55: a response is not stored in the block: no operation reads the one before it (log entry 3). -/
def Obligations.ResponseIsReadByNothing : Prop :=
  ∀ (i : Instr) (r : Option Response) (s : State), exec i { s with response := r } = exec i s

/-- R20: no operation reads FAULT: with another record the operation does the same but for the record. -/
def Obligations.FaultRecordIsReadByNothing : Prop :=
  ∀ (i : Instr) (f : BitVec 2) (s t : State), exec i s = .next t →
    ∃ g, exec i { s with fault := f } = .next { t with fault := g }

/-- R20, R115: a recorded fault stays recorded; only a power-on reset clears it. -/
def Obligations.FaultRecordIsSticky : Prop :=
  ∀ s t : State, step s = .next t → (∀ rest, s.inputs ≠ .powerOnReset :: rest) → s.fault &&& t.fault = s.fault

/-- R112, R114: when a step records a fault it records one bit, gives no response, and changes no other register. -/
def Obligations.FaultsArePrecise : Prop :=
  ∀ s t : State, step s = .next t → (∀ rest, s.inputs ≠ .powerOnReset :: rest) → t.fault ≠ s.fault →
    (t.fault = s.fault ||| 0b01#2 ∨ t.fault = s.fault ||| 0b10#2) ∧
    t = { s with inputs := t.inputs, fault := t.fault, response := none }

/-- The reset state meets the invariant, and every byte below its cursor has been written. -/
def Obligations.ResetMeetsTheInvariant : Prop :=
  Inv State.reset ∧ Filled State.reset

/-- R12, R83 (a), R104, and the canonical form of the sample store: every step keeps the invariant. -/
def Obligations.StepKeepsTheInvariant : Prop :=
  ∀ s t : State, Inv s → step s = .next t → Inv t

/-- R4, R115: in a state that meets the invariant the block always goes on: no step stops. -/
def Obligations.StepNeverStops : Prop :=
  ∀ s : State, Inv s → ∃ t, step s = .next t

/-- R36 (a), R84: every step keeps it true that all bytes below the cursor have been written, so the tail copy moves
written bytes only. -/
def Obligations.StepKeepsTheStoreFilled : Prop :=
  ∀ s t : State, Filled s → step s = .next t → Filled t
end

