-- ==== Sys2Proof/Laws/State.lean ====
section
/-!
SUPPORT. One lemma per field per update of the state, true by unfolding the update once, so that no later proof
unfolds a record update.
-/
namespace Sys2Proof.Machine

/-! ### `respond`: ending an operation (R55) -/

@[simp] theorem respond_buf (r : Option Response) (s : State) : (respond r s).buf = s.buf := rfl
@[simp] theorem respond_idx (r : Option Response) (s : State) : (respond r s).idx = s.idx := rfl
@[simp] theorem respond_drained (r : Option Response) (s : State) : (respond r s).drained = s.drained := rfl
@[simp] theorem respond_spk (r : Option Response) (s : State) : (respond r s).spk = s.spk := rfl
@[simp] theorem respond_mode (r : Option Response) (s : State) : (respond r s).mode = s.mode := rfl
@[simp] theorem respond_mel (r : Option Response) (s : State) : (respond r s).mel = s.mel := rfl
@[simp] theorem respond_btn (r : Option Response) (s : State) : (respond r s).btn = s.btn := rfl
@[simp] theorem respond_joy (r : Option Response) (s : State) : (respond r s).joy = s.joy := rfl
@[simp] theorem respond_lines (r : Option Response) (s : State) : (respond r s).lines = s.lines := rfl
@[simp] theorem respond_key8 (r : Option Response) (s : State) : (respond r s).key8 = s.key8 := rfl
@[simp] theorem respond_key9 (r : Option Response) (s : State) : (respond r s).key9 = s.key9 := rfl
@[simp] theorem respond_fault (r : Option Response) (s : State) : (respond r s).fault = s.fault := rfl
@[simp] theorem respond_inputs (r : Option Response) (s : State) : (respond r s).inputs = s.inputs := rfl
@[simp] theorem respond_response (r : Option Response) (s : State) : (respond r s).response = r := rfl
@[simp] theorem respond_draws (r : Option Response) (s : State) : (respond r s).draws = s.draws := rfl

/-! ### `raise`: taking a block fault (R112) -/

@[simp] theorem raise_buf (f : BlockFault) (s : State) : (raise f s).buf = s.buf := rfl
@[simp] theorem raise_idx (f : BlockFault) (s : State) : (raise f s).idx = s.idx := rfl
@[simp] theorem raise_drained (f : BlockFault) (s : State) : (raise f s).drained = s.drained := rfl
@[simp] theorem raise_spk (f : BlockFault) (s : State) : (raise f s).spk = s.spk := rfl
@[simp] theorem raise_mode (f : BlockFault) (s : State) : (raise f s).mode = s.mode := rfl
@[simp] theorem raise_mel (f : BlockFault) (s : State) : (raise f s).mel = s.mel := rfl
@[simp] theorem raise_btn (f : BlockFault) (s : State) : (raise f s).btn = s.btn := rfl
@[simp] theorem raise_joy (f : BlockFault) (s : State) : (raise f s).joy = s.joy := rfl
@[simp] theorem raise_lines (f : BlockFault) (s : State) : (raise f s).lines = s.lines := rfl
@[simp] theorem raise_key8 (f : BlockFault) (s : State) : (raise f s).key8 = s.key8 := rfl
@[simp] theorem raise_key9 (f : BlockFault) (s : State) : (raise f s).key9 = s.key9 := rfl
@[simp] theorem raise_fault (f : BlockFault) (s : State) : (raise f s).fault = s.fault ||| f.bit := rfl
@[simp] theorem raise_inputs (f : BlockFault) (s : State) : (raise f s).inputs = s.inputs := rfl
@[simp] theorem raise_response (f : BlockFault) (s : State) : (raise f s).response = none := rfl
@[simp] theorem raise_draws (f : BlockFault) (s : State) : (raise f s).draws = s.draws := rfl

/-! ### `soundInit`: sound-init (R70) -/

@[simp] theorem soundInit_buf (s : State) : (soundInit s).buf = [] := rfl
@[simp] theorem soundInit_idx (s : State) : (soundInit s).idx = 0#10 := rfl
@[simp] theorem soundInit_drained (s : State) : (soundInit s).drained = false := rfl
@[simp] theorem soundInit_spk (s : State) : (soundInit s).spk = s.spk := rfl
@[simp] theorem soundInit_mode (s : State) : (soundInit s).mode = s.mode := rfl
@[simp] theorem soundInit_mel (s : State) : (soundInit s).mel = s.mel := rfl
@[simp] theorem soundInit_btn (s : State) : (soundInit s).btn = s.btn := rfl
@[simp] theorem soundInit_joy (s : State) : (soundInit s).joy = s.joy := rfl
@[simp] theorem soundInit_lines (s : State) : (soundInit s).lines = s.lines := rfl
@[simp] theorem soundInit_key8 (s : State) : (soundInit s).key8 = s.key8 := rfl
@[simp] theorem soundInit_key9 (s : State) : (soundInit s).key9 = s.key9 := rfl
@[simp] theorem soundInit_fault (s : State) : (soundInit s).fault = s.fault := rfl
@[simp] theorem soundInit_inputs (s : State) : (soundInit s).inputs = s.inputs := rfl
@[simp] theorem soundInit_response (s : State) : (soundInit s).response = s.response := rfl
@[simp] theorem soundInit_draws (s : State) : (soundInit s).draws = s.draws + 1 := rfl

/-! ### `setDrained`: the drain handshake (R77) -/

@[simp] theorem setDrained_buf (s : State) : (setDrained s).buf = s.buf := rfl
@[simp] theorem setDrained_idx (s : State) : (setDrained s).idx = s.idx := rfl
@[simp] theorem setDrained_drained (s : State) : (setDrained s).drained = true := rfl
@[simp] theorem setDrained_spk (s : State) : (setDrained s).spk = s.spk := rfl
@[simp] theorem setDrained_mode (s : State) : (setDrained s).mode = s.mode := rfl
@[simp] theorem setDrained_mel (s : State) : (setDrained s).mel = s.mel := rfl
@[simp] theorem setDrained_btn (s : State) : (setDrained s).btn = s.btn := rfl
@[simp] theorem setDrained_joy (s : State) : (setDrained s).joy = s.joy := rfl
@[simp] theorem setDrained_lines (s : State) : (setDrained s).lines = s.lines := rfl
@[simp] theorem setDrained_key8 (s : State) : (setDrained s).key8 = s.key8 := rfl
@[simp] theorem setDrained_key9 (s : State) : (setDrained s).key9 = s.key9 := rfl
@[simp] theorem setDrained_fault (s : State) : (setDrained s).fault = s.fault := rfl
@[simp] theorem setDrained_inputs (s : State) : (setDrained s).inputs = s.inputs := rfl
@[simp] theorem setDrained_response (s : State) : (setDrained s).response = s.response := rfl
@[simp] theorem setDrained_draws (s : State) : (setDrained s).draws = s.draws := rfl

/-! ### `setMask`: a sub-slot mask load (R91) -/

@[simp] theorem setMask_buf (slot : BitVec 3) (sub : BitVec 2) (mask : Byte) (s : State) : (setMask slot sub mask s).buf = s.buf := rfl
@[simp] theorem setMask_idx (slot : BitVec 3) (sub : BitVec 2) (mask : Byte) (s : State) : (setMask slot sub mask s).idx = s.idx := rfl
@[simp] theorem setMask_drained (slot : BitVec 3) (sub : BitVec 2) (mask : Byte) (s : State) : (setMask slot sub mask s).drained = s.drained := rfl
@[simp] theorem setMask_spk (slot : BitVec 3) (sub : BitVec 2) (mask : Byte) (s : State) : (setMask slot sub mask s).spk = s.spk := rfl
@[simp] theorem setMask_mode (slot : BitVec 3) (sub : BitVec 2) (mask : Byte) (s : State) : (setMask slot sub mask s).mode = s.mode := rfl
@[simp] theorem setMask_mel (slot : BitVec 3) (sub : BitVec 2) (mask : Byte) (s : State) : (setMask slot sub mask s).mel = s.mel := rfl
@[simp] theorem setMask_btn (slot : BitVec 3) (sub : BitVec 2) (mask : Byte) (s : State) : (setMask slot sub mask s).btn = s.btn := rfl
@[simp] theorem setMask_joy (slot : BitVec 3) (sub : BitVec 2) (mask : Byte) (s : State) : (setMask slot sub mask s).joy = s.joy := rfl
@[simp] theorem setMask_lines (slot : BitVec 3) (sub : BitVec 2) (mask : Byte) (s : State) : (setMask slot sub mask s).lines = s.lines.set slot.toNat { lineAt s slot with m := (lineAt s slot).m.set sub.toNat mask sub.isLt } slot.isLt := rfl
@[simp] theorem setMask_key8 (slot : BitVec 3) (sub : BitVec 2) (mask : Byte) (s : State) : (setMask slot sub mask s).key8 = s.key8 := rfl
@[simp] theorem setMask_key9 (slot : BitVec 3) (sub : BitVec 2) (mask : Byte) (s : State) : (setMask slot sub mask s).key9 = s.key9 := rfl
@[simp] theorem setMask_fault (slot : BitVec 3) (sub : BitVec 2) (mask : Byte) (s : State) : (setMask slot sub mask s).fault = s.fault := rfl
@[simp] theorem setMask_inputs (slot : BitVec 3) (sub : BitVec 2) (mask : Byte) (s : State) : (setMask slot sub mask s).inputs = s.inputs := rfl
@[simp] theorem setMask_response (slot : BitVec 3) (sub : BitVec 2) (mask : Byte) (s : State) : (setMask slot sub mask s).response = s.response := rfl
@[simp] theorem setMask_draws (slot : BitVec 3) (sub : BitVec 2) (mask : Byte) (s : State) : (setMask slot sub mask s).draws = s.draws := rfl

/-! ### `setMultikey`: a multikey flag load (R93) -/

@[simp] theorem setMultikey_buf (slot : BitVec 3) (mk : Bool) (s : State) : (setMultikey slot mk s).buf = s.buf := rfl
@[simp] theorem setMultikey_idx (slot : BitVec 3) (mk : Bool) (s : State) : (setMultikey slot mk s).idx = s.idx := rfl
@[simp] theorem setMultikey_drained (slot : BitVec 3) (mk : Bool) (s : State) : (setMultikey slot mk s).drained = s.drained := rfl
@[simp] theorem setMultikey_spk (slot : BitVec 3) (mk : Bool) (s : State) : (setMultikey slot mk s).spk = s.spk := rfl
@[simp] theorem setMultikey_mode (slot : BitVec 3) (mk : Bool) (s : State) : (setMultikey slot mk s).mode = s.mode := rfl
@[simp] theorem setMultikey_mel (slot : BitVec 3) (mk : Bool) (s : State) : (setMultikey slot mk s).mel = s.mel := rfl
@[simp] theorem setMultikey_btn (slot : BitVec 3) (mk : Bool) (s : State) : (setMultikey slot mk s).btn = s.btn := rfl
@[simp] theorem setMultikey_joy (slot : BitVec 3) (mk : Bool) (s : State) : (setMultikey slot mk s).joy = s.joy := rfl
@[simp] theorem setMultikey_lines (slot : BitVec 3) (mk : Bool) (s : State) : (setMultikey slot mk s).lines = s.lines.set slot.toNat { lineAt s slot with multikey := mk } slot.isLt := rfl
@[simp] theorem setMultikey_key8 (slot : BitVec 3) (mk : Bool) (s : State) : (setMultikey slot mk s).key8 = s.key8 := rfl
@[simp] theorem setMultikey_key9 (slot : BitVec 3) (mk : Bool) (s : State) : (setMultikey slot mk s).key9 = s.key9 := rfl
@[simp] theorem setMultikey_fault (slot : BitVec 3) (mk : Bool) (s : State) : (setMultikey slot mk s).fault = s.fault := rfl
@[simp] theorem setMultikey_inputs (slot : BitVec 3) (mk : Bool) (s : State) : (setMultikey slot mk s).inputs = s.inputs := rfl
@[simp] theorem setMultikey_response (slot : BitVec 3) (mk : Bool) (s : State) : (setMultikey slot mk s).response = s.response := rfl
@[simp] theorem setMultikey_draws (slot : BitVec 3) (mk : Bool) (s : State) : (setMultikey slot mk s).draws = s.draws := rfl

/-! ### `presentNext`: an agent presenting a word -/

@[simp] theorem presentNext_buf (w : CmdWord) (s : State) : (presentNext w s).buf = s.buf := rfl
@[simp] theorem presentNext_idx (w : CmdWord) (s : State) : (presentNext w s).idx = s.idx := rfl
@[simp] theorem presentNext_drained (w : CmdWord) (s : State) : (presentNext w s).drained = s.drained := rfl
@[simp] theorem presentNext_spk (w : CmdWord) (s : State) : (presentNext w s).spk = s.spk := rfl
@[simp] theorem presentNext_mode (w : CmdWord) (s : State) : (presentNext w s).mode = s.mode := rfl
@[simp] theorem presentNext_mel (w : CmdWord) (s : State) : (presentNext w s).mel = s.mel := rfl
@[simp] theorem presentNext_btn (w : CmdWord) (s : State) : (presentNext w s).btn = s.btn := rfl
@[simp] theorem presentNext_joy (w : CmdWord) (s : State) : (presentNext w s).joy = s.joy := rfl
@[simp] theorem presentNext_lines (w : CmdWord) (s : State) : (presentNext w s).lines = s.lines := rfl
@[simp] theorem presentNext_key8 (w : CmdWord) (s : State) : (presentNext w s).key8 = s.key8 := rfl
@[simp] theorem presentNext_key9 (w : CmdWord) (s : State) : (presentNext w s).key9 = s.key9 := rfl
@[simp] theorem presentNext_fault (w : CmdWord) (s : State) : (presentNext w s).fault = s.fault := rfl
@[simp] theorem presentNext_inputs (w : CmdWord) (s : State) : (presentNext w s).inputs = .command w :: s.inputs := rfl
@[simp] theorem presentNext_response (w : CmdWord) (s : State) : (presentNext w s).response = s.response := rfl
@[simp] theorem presentNext_draws (w : CmdWord) (s : State) : (presentNext w s).draws = s.draws := rfl

/-! ### `powerOn`: power-on reset (R24, R131) -/

@[simp] theorem powerOn_buf (s : State) : (powerOn s).buf = [] := rfl
@[simp] theorem powerOn_idx (s : State) : (powerOn s).idx = 0#10 := rfl
@[simp] theorem powerOn_drained (s : State) : (powerOn s).drained = false := rfl
@[simp] theorem powerOn_spk (s : State) : (powerOn s).spk = Config.freeSpeaker (s.draws + 1) := rfl
@[simp] theorem powerOn_mode (s : State) : (powerOn s).mode = 0#3 := rfl
@[simp] theorem powerOn_mel (s : State) : (powerOn s).mel = false := rfl
@[simp] theorem powerOn_btn (s : State) : (powerOn s).btn = 0#10 := rfl
@[simp] theorem powerOn_joy (s : State) : (powerOn s).joy = 0#8 := rfl
@[simp] theorem powerOn_lines (s : State) : (powerOn s).lines = Vector.replicate 8 Line.absent := rfl
@[simp] theorem powerOn_key8 (s : State) : (powerOn s).key8 = 0#8 := rfl
@[simp] theorem powerOn_key9 (s : State) : (powerOn s).key9 = 0#8 := rfl
@[simp] theorem powerOn_fault (s : State) : (powerOn s).fault = 0#2 := rfl
@[simp] theorem powerOn_inputs (s : State) : (powerOn s).inputs = s.inputs := rfl
@[simp] theorem powerOn_response (s : State) : (powerOn s).response = none := rfl
@[simp] theorem powerOn_draws (s : State) : (powerOn s).draws = s.draws + 1 := rfl

end Sys2Proof.Machine
end

