-- ==== Sys2Proof/Laws/Memory.lean ====
section
/-!
SUPPORT. The sample store as data: a write is read back, leaves every other address alone, and keeps the canonical
form; equal readings of canonical stores are equal data.
-/
namespace Sys2Proof.Machine

@[simp] theorem Config.C_eq : Config.C = 256 := by decide
@[simp] theorem Config.storeSize_eq : Config.storeSize = 512 := by decide

@[simp] theorem Memory.read_nil (a : Nat) : Memory.read [] a = none := rfl

theorem Memory.read_write_same (m : Memory) (a : Nat) (v : Byte) :
    Memory.read (Memory.write m a v) a = some v := by
  induction m with
  | nil => simp [Memory.write, Memory.read]
  | cons c m ih =>
    obtain ⟨k, w⟩ := c
    by_cases h₁ : a < k
    · simp [Memory.write, Memory.read, h₁]
    · by_cases h₂ : a = k
      · simp [Memory.write, Memory.read, h₂]
      · simp [Memory.write, Memory.read, h₁, h₂, Ne.symm h₂, ih]

theorem Memory.read_write_other (m : Memory) {a b : Nat} (v : Byte) (h : b ≠ a) :
    Memory.read (Memory.write m a v) b = Memory.read m b := by
  induction m with
  | nil => simp [Memory.write, Memory.read, Ne.symm h]
  | cons c m ih =>
    obtain ⟨k, w⟩ := c
    by_cases h₁ : a < k
    · simp [Memory.write, Memory.read, h₁, Ne.symm h]
    · by_cases h₂ : a = k
      · subst h₂; simp [Memory.write, Memory.read, Ne.symm h]
      · simp [Memory.write, Memory.read, h₁, h₂, ih]

/-- The addresses a write lists: those listed before, and its own. -/
theorem Memory.mem_write {m : Memory} {a : Nat} {v : Byte} {c : Host.Cell} (h : c ∈ Memory.write m a v) :
    c = (a, v) ∨ c ∈ m := by
  induction m with
  | nil => simpa [Memory.write] using h
  | cons d m ih =>
    obtain ⟨k, w⟩ := d
    by_cases h₁ : a < k
    · simpa [Memory.write, h₁] using h
    · by_cases h₂ : a = k
      · subst h₂
        simp only [Memory.write, lt_irrefl, if_false, if_true, List.mem_cons] at h ⊢
        tauto
      · simp only [Memory.write, h₁, h₂, if_false, List.mem_cons] at h ⊢
        rcases h with h | h
        · exact .inr (.inl h)
        · rcases ih h with h | h
          · exact .inl h
          · exact .inr (.inr h)

theorem Memory.wf_nil : Memory.wf [] := by simp [Memory.wf]

theorem Memory.wf_write {m : Memory} {a : Nat} (v : Byte) (hm : Memory.wf m) (ha : a < Config.storeSize) :
    Memory.wf (Memory.write m a v) := by
  refine ⟨?_, fun c hc => ?_⟩
  · have hp := hm.1
    clear hm
    induction m with
    | nil => simp [Memory.write]
    | cons d m ih =>
      obtain ⟨k, w⟩ := d
      rw [List.pairwise_cons] at hp
      by_cases h₁ : a < k
      · simp only [Memory.write, h₁, if_true, List.pairwise_cons]
        refine ⟨fun c hc => ?_, hp⟩
        rcases List.mem_cons.1 hc with rfl | hc
        · exact h₁
        · exact lt_trans h₁ (hp.1 c hc)
      · by_cases h₂ : a = k
        · subst h₂
          simpa [Memory.write] using hp
        · simp only [Memory.write, h₁, h₂, if_false, List.pairwise_cons]
          refine ⟨fun c hc => ?_, ih hp.2⟩
          rcases Memory.mem_write hc with rfl | hc
          · show k < a
            omega
          · exact hp.1 c hc
  · rcases Memory.mem_write hc with rfl | hc
    · exact ha
    · exact hm.2 c hc

theorem Memory.read_of_lt {m : Memory} {a : Nat} (h : ∀ c ∈ m, a < c.1) : Memory.read m a = none := by
  induction m with
  | nil => rfl
  | cons c m ih =>
    have hne : c.1 ≠ a := Nat.ne_of_gt (h c (by simp))
    rw [Memory.read, if_neg hne]
    exact ih fun d hd => h d (by simp [hd])

/-- The canonical form is canonical: stores that read the same at every address are the same list. -/
theorem Memory.ext_of_wf {m n : Memory} (hm : Memory.wf m) (hn : Memory.wf n)
    (h : ∀ a, Memory.read m a = Memory.read n a) : m = n := by
  obtain ⟨hm, -⟩ := hm
  obtain ⟨hn, -⟩ := hn
  induction m generalizing n with
  | nil =>
    cases n with
    | nil => rfl
    | cons d n => simpa [Memory.read] using h d.1
  | cons c m ih =>
    cases n with
    | nil => simpa [Memory.read] using h c.1
    | cons d n =>
      rw [List.pairwise_cons] at hm hn
      have hkey : c.1 = d.1 := by
        rcases Nat.lt_trichotomy c.1 d.1 with hlt | heq | hgt
        · have := h c.1
          rw [Memory.read_of_lt (m := d :: n) (by
            intro e he
            rcases List.mem_cons.1 he with rfl | he
            · exact hlt
            · exact lt_trans hlt (hn.1 e he))] at this
          simp [Memory.read] at this
        · exact heq
        · have := h d.1
          rw [Memory.read_of_lt (m := c :: m) (by
            intro e he
            rcases List.mem_cons.1 he with rfl | he
            · exact hgt
            · exact lt_trans hgt (hm.1 e he))] at this
          simp [Memory.read] at this
      have hval : c = d := by
        have := h c.1
        simp only [Memory.read, hkey, if_true, Option.some.injEq] at this
        exact Prod.ext hkey this
      subst hval
      congr 1
      refine ih (n := n) (fun a => ?_) hm.2 hn.2
      by_cases ha : c.1 = a
      · subst ha
        rw [Memory.read_of_lt (fun e he => hm.1 e he), Memory.read_of_lt (fun e he => hn.1 e he)]
      · simpa [Memory.read, ha] using h a

/-! ### Reading one byte of BUF -/

/-- What a byte reads as depends on the store and the draw only. -/
theorem bufByte_congr {s t : State} (hb : t.buf = s.buf) (hd : t.draws = s.draws) (a : Nat) :
    bufByte t a = bufByte s a := by
  simp only [bufByte, hb, hd]

theorem bufByte_eq_written {s t : State} {a : Nat} {v : Byte} (h : t.buf = Memory.write s.buf a v) :
    bufByte t a = v := by
  simp only [bufByte, h, Memory.read_write_same]

theorem bufByte_eq_other {s t : State} {a b : Nat} {v : Byte} (h : t.buf = Memory.write s.buf a v)
    (hd : t.draws = s.draws) (hb : b ≠ a) : bufByte t b = bufByte s b := by
  simp only [bufByte, h, hd, Memory.read_write_other _ _ hb]

end Sys2Proof.Machine
end

