-- ==== Sys2Proof/Laws/Audio.lean ====
section
/-!
SUPPORT. What each shared operation of the audio half can do, said once: memory accesses, the tail copy, the handshake,
the store, and SND_WR as a whole.
-/
namespace Sys2Proof.Machine

theorem memRead_ok {a : Nat} (s : State) (h : a < 512) : memRead a s = .ok (bufByte s a) := by
  simp [memRead, h]

theorem memRead_error {a : Nat} (s : State) (h : 512 ≤ a) : memRead a s = .error (.noSuchAddress a) := by
  simp [memRead, Nat.not_lt.2 h]

theorem memWrite_ok {a : Nat} (v : Byte) (s : State) (h : a < 512) :
    memWrite a v s = .ok { s with buf := Memory.write s.buf a v } := by
  simp [memWrite, h]

theorem memWrite_error {a : Nat} (v : Byte) (s : State) (h : 512 ≤ a) :
    memWrite a v s = .error (.noSuchAddress a) := by
  simp [memWrite, Nat.not_lt.2 h]

/-- The tail copy inside the store: only BUF changes, the bytes `[i, i + n)` become those at distance `C`, the canonical
form is kept, and no written byte is lost. -/
theorem tailCopy_ok (n i : Nat) (s : State) (h : i + n ≤ 256) :
    ∃ t, tailCopy n i s = .ok t ∧ t = { s with buf := t.buf } ∧
      (∀ a, bufByte t a = if i ≤ a ∧ a < i + n then bufByte s (256 + a) else bufByte s a) ∧
      (Memory.wf s.buf → Memory.wf t.buf) ∧
      (∀ a, (Memory.read s.buf a).isSome ∨ (i ≤ a ∧ a < i + n) → (Memory.read t.buf a).isSome) := by
  induction n generalizing i s with
  | zero =>
    refine ⟨s, rfl, rfl, fun a => ?_, id, fun a ha => ?_⟩
    · rw [if_neg (by omega)]
    · exact ha.resolve_right (by omega)
  | succ n ih =>
    let s₁ : State := { s with buf := Memory.write s.buf i (bufByte s (256 + i)) }
    obtain ⟨t, ht, hframe, hbyte, hwf, hlisted⟩ := ih (i + 1) s₁ (by omega)
    have hstep : tailCopy (n + 1) i s = tailCopy n (i + 1) s₁ := by
      simp only [tailCopy, Config.C_eq, memRead_ok s (show 256 + i < 512 by omega),
        memWrite_ok _ s (show i < 512 by omega)]
      rfl
    have hself : bufByte s₁ i = bufByte s (256 + i) := bufByte_eq_written rfl
    have hother : ∀ a, a ≠ i → bufByte s₁ a = bufByte s a := fun a ha => bufByte_eq_other rfl rfl ha
    refine ⟨t, hstep.trans ht, ?_, fun a => ?_, fun hm => hwf ?_, fun a ha => hlisted a ?_⟩
    · rw [hframe]
    · rw [hbyte a]
      rcases Nat.lt_trichotomy a i with hlt | heq | hgt
      · rw [if_neg (by omega), if_neg (by omega), hother a (by omega)]
      · subst heq
        rw [if_neg (by omega), if_pos (by omega), hself]
      · by_cases hin : a < i + (n + 1)
        · rw [if_pos (by omega), if_pos (by omega), hother (256 + a) (by omega)]
        · rw [if_neg (by omega), if_neg (by omega), hother a (by omega)]
    · exact Memory.wf_write _ hm (by simp only [Config.storeSize_eq]; omega)
    · by_cases hi : a = i
      · subst hi
        exact .inl (by simp [s₁, Memory.read_write_same])
      · rcases ha with ha | ha
        · exact .inl (by simpa [s₁, Memory.read_write_other _ _ hi] using ha)
        · exact .inr (by omega)

/-- The tail copy that would leave the store stops at its end. -/
theorem tailCopy_error (n i : Nat) (s : State) (hi : i ≤ 256) (h : 256 < i + n) :
    tailCopy n i s = .error (.noSuchAddress 512) := by
  induction n generalizing i s with
  | zero => omega
  | succ n ih =>
    rcases Nat.lt_or_eq_of_le hi with hlt | rfl
    · simp only [tailCopy, Config.C_eq, memRead_ok s (show 256 + i < 512 by omega),
        memWrite_ok _ s (show i < 512 by omega)]
      exact ih (i + 1) _ (by omega) (by omega)
    · simp only [tailCopy, Config.C_eq, memRead_error s (show 512 ≤ 256 + 256 by omega)]

/-- The shifted cursor is `max(IDX - C, 0)` (R82 (b)). -/
theorem shiftCursor_toNat (idx : Cursor) : (shiftCursor idx).toNat = idx.toNat - 256 := by
  have := idx.isLt
  simp only [shiftCursor, Config.C_eq]
  by_cases h : (idx.toNat : Int) - (256 : Nat) < 0
  · rw [if_pos h]; simp; omega
  · rw [if_neg h, BitVec.toNat_ofNat]; omega

theorem handshake_idle {s : State} (h : s.drained = false) : handshake s = .ok s := by
  simp [handshake, h]

/-- The handshake taken with the cursor in its range (R74). -/
theorem handshake_taken {s : State} (h : s.drained = true) (hi : s.idx.toNat ≤ 512) :
    ∃ t, handshake s = .ok t ∧ t = { s with drained := false, idx := shiftCursor s.idx, buf := t.buf } ∧
      (∀ a, bufByte t a = if a < s.idx.toNat - 256 then bufByte s (256 + a) else bufByte s a) ∧
      (Memory.wf s.buf → Memory.wf t.buf) ∧
      (∀ a, (Memory.read s.buf a).isSome ∨ a < s.idx.toNat - 256 → (Memory.read t.buf a).isSome) := by
  let s₁ : State := { s with drained := false, idx := shiftCursor s.idx }
  obtain ⟨t, ht, hframe, hbyte, hwf, hlisted⟩ := tailCopy_ok (shiftCursor s.idx).toNat 0 s₁
    (by rw [shiftCursor_toNat]; omega)
  refine ⟨t, by simpa [handshake, h] using ht, by rw [hframe], fun a => ?_, hwf, fun a ha => hlisted a ?_⟩
  · have := hbyte a
    simp only [shiftCursor_toNat, Nat.zero_add, Nat.zero_le, true_and] at this
    exact this
  · simpa only [shiftCursor_toNat, Nat.zero_add, Nat.zero_le, true_and] using ha

/-- The handshake with a cursor R12 calls unreachable stops at the end of the store. -/
theorem handshake_error {s : State} (h : s.drained = true) (hi : 512 < s.idx.toNat) :
    handshake s = .error (.noSuchAddress 512) := by
  simp only [handshake, h, if_true]
  exact tailCopy_error _ 0 _ (by omega) (by rw [shiftCursor_toNat]; omega)

theorem storeSample_stores {s : State} (e : Byte) (h : s.idx.toNat < 512) :
    storeSample e s = .ok { s with
      buf := Memory.write s.buf s.idx.toNat e, idx := s.idx + 1#10, spk := e, response := none } := by
  simp [storeSample, storeAtCursor, memWrite_ok _ _ h, Nat.ne_of_lt h, respond]

theorem storeSample_overruns {s : State} (e : Byte) (h : s.idx.toNat = 512) :
    storeSample e s = .ok (raise .audioOverrun s) := by
  simp [storeSample, h]

theorem storeSample_error {s : State} (e : Byte) (h : 512 < s.idx.toNat) :
    storeSample e s = .error (.noSuchAddress s.idx.toNat) := by
  simp [storeSample, storeAtCursor, memWrite_error _ _ (Nat.le_of_lt h), Nat.ne_of_gt h]

theorem cursor_succ {c : Cursor} (h : c.toNat < 512) : (c + 1#10).toNat = c.toNat + 1 := by
  rw [BitVec.toNat_add]
  simp
  omega

/-- A SND_WR with nothing to drain and room in the store. -/
theorem execSndWr_stores {s : State} (data : Byte) (hd : s.drained = false) (hi : s.idx.toNat < 512) :
    execSndWr data s = .next { s with
      buf := Memory.write s.buf s.idx.toNat (emitted data s), idx := s.idx + 1#10, spk := emitted data s,
      response := none } := by
  simp [execSndWr, handshake_idle hd, storeSample_stores _ hi, finish]

/-- A SND_WR with nothing to drain and the store full (R76). -/
theorem execSndWr_overruns {s : State} (data : Byte) (hd : s.drained = false) (hi : s.idx.toNat = 512) :
    execSndWr data s = .next (raise .audioOverrun s) := by
  simp [execSndWr, handshake_idle hd, storeSample_overruns _ hi, finish]

/-- A SND_WR that takes a drain (R74, R80): the tail moves to the start, the sample goes after it. -/
theorem execSndWr_drains {s : State} (data : Byte) (hd : s.drained = true) (hi : s.idx.toNat ≤ 512) :
    ∃ t, execSndWr data s = .next t ∧
      t = { s with buf := t.buf, idx := t.idx, drained := false, spk := emitted data s, response := none } ∧
      t.idx.toNat = s.idx.toNat - 256 + 1 ∧
      (∀ a, bufByte t a =
        if a < s.idx.toNat - 256 then bufByte s (256 + a)
        else if a = s.idx.toNat - 256 then emitted data s
        else bufByte s a) ∧
      (Memory.wf s.buf → Memory.wf t.buf) ∧
      (∀ a, (Memory.read s.buf a).isSome ∨ a ≤ s.idx.toNat - 256 → (Memory.read t.buf a).isSome) := by
  obtain ⟨u, hu, hframe, hbyte, hwf, hlisted⟩ := handshake_taken hd hi
  have hidx : u.idx.toNat = s.idx.toNat - 256 := by rw [hframe]; exact shiftCursor_toNat _
  have he : emitted data u = emitted data s := by rw [hframe]; rfl
  have hlt : u.idx.toNat < 512 := by omega
  let t : State := { u with
    buf := Memory.write u.buf u.idx.toNat (emitted data s), idx := u.idx + 1#10, spk := emitted data s, response := none }
  refine ⟨t, ?_, ?_, ?_, fun a => ?_, fun hm => ?_, fun a ha => ?_⟩
  · simp [execSndWr, hu, storeSample_stores _ hlt, finish, he, t]
  · simp only [t]; rw [hframe]
  · show (u.idx + 1#10).toNat = _
    rw [cursor_succ hlt, hidx]
  · by_cases ha : a = u.idx.toNat
    · subst ha
      rw [if_neg (by omega), if_pos hidx]
      exact bufByte_eq_written rfl
    · have hb : bufByte t a = bufByte u a := bufByte_eq_other rfl rfl ha
      rw [hb, hbyte a, if_neg (c := a = s.idx.toNat - 256) (by omega)]
  · exact Memory.wf_write _ (hwf hm) (by simpa using hlt)
  · show (Memory.read (Memory.write u.buf u.idx.toNat _) a).isSome
    by_cases hau : a = u.idx.toNat
    · subst hau; simp [Memory.read_write_same]
    · rw [Memory.read_write_other _ _ hau]
      refine hlisted a (ha.imp_right fun hle => ?_)
      omega

/-- A SND_WR with a cursor R12 calls unreachable stops the model, whatever the flag. -/
theorem execSndWr_outside {s : State} (data : Byte) (hi : 512 < s.idx.toNat) :
    ∃ a, execSndWr data s = .fault (.noSuchAddress a) := by
  cases hd : s.drained with
  | false => exact ⟨s.idx.toNat, by simp [execSndWr, handshake_idle hd, storeSample_error _ hi, finish]⟩
  | true => exact ⟨512, by simp [execSndWr, handshake_error hd hi]⟩

/-- Everything a SND_WR that answers a next state can have done. -/
theorem execSndWr_cases {s t : State} {data : Byte} (h : execSndWr data s = .next t) :
    (s.drained = false ∧ s.idx.toNat = 512 ∧ t = raise .audioOverrun s) ∨
    (s.drained = false ∧ s.idx.toNat < 512 ∧ t = { s with
      buf := Memory.write s.buf s.idx.toNat (emitted data s), idx := s.idx + 1#10, spk := emitted data s,
      response := none }) ∨
    (s.drained = true ∧ s.idx.toNat ≤ 512 ∧
      t = { s with buf := t.buf, idx := t.idx, drained := false, spk := emitted data s, response := none } ∧
      t.idx.toNat = s.idx.toNat - 256 + 1 ∧
      (∀ a, bufByte t a =
        if a < s.idx.toNat - 256 then bufByte s (256 + a)
        else if a = s.idx.toNat - 256 then emitted data s
        else bufByte s a) ∧
      (Memory.wf s.buf → Memory.wf t.buf) ∧
      (∀ a, (Memory.read s.buf a).isSome ∨ a ≤ s.idx.toNat - 256 → (Memory.read t.buf a).isSome)) := by
  rcases Nat.lt_or_ge 512 s.idx.toNat with hi | hi
  · obtain ⟨a, ha⟩ := execSndWr_outside (s := s) data hi
    rw [ha] at h; cases h
  · cases hd : s.drained with
    | false =>
      rcases Nat.lt_or_eq_of_le hi with hlt | heq
      · rw [execSndWr_stores data hd hlt] at h
        cases h
        exact .inr (.inl ⟨rfl, hlt, by rw [hd]⟩)
      · rw [execSndWr_overruns data hd heq] at h
        cases h
        exact .inl ⟨rfl, heq, rfl⟩
    | true =>
      obtain ⟨u, hu, hrest⟩ := execSndWr_drains data hd hi
      rw [hu] at h
      cases h
      exact .inr (.inr ⟨rfl, hi, hrest⟩)

/-! ### Registers the handshake does not read -/

/-- `f` changes only registers the handshake neither reads nor writes. -/
structure PassesHandshake (f : State → State) : Prop where
  comm : ∀ s b d c, f { s with buf := b, drained := d, idx := c } = { f s with buf := b, drained := d, idx := c }
  buf : ∀ s, (f s).buf = s.buf
  drained : ∀ s, (f s).drained = s.drained
  idx : ∀ s, (f s).idx = s.idx
  draws : ∀ s, (f s).draws = s.draws

theorem PassesHandshake.withBuf {f : State → State} (hf : PassesHandshake f) (s : State) (b : Memory) :
    f { s with buf := b } = { f s with buf := b } := by
  exact (hf.comm s b s.drained s.idx).trans (by rw [← hf.drained s, ← hf.idx s])

/-- A change of such registers goes through the tail copy. -/
theorem tailCopy_comm {f : State → State} (hf : PassesHandshake f) (n i : Nat) (s : State) :
    tailCopy n i (f s) = (tailCopy n i s).map f := by
  induction n generalizing i s with
  | zero => rfl
  | succ n ih =>
    have hread : ∀ a, bufByte (f s) a = bufByte s a := bufByte_congr (hf.buf s) (hf.draws s)
    by_cases hr : 256 + i < 512
    · have hi : i < 512 := by omega
      simp only [tailCopy, Config.C_eq, memRead_ok _ hr, memWrite_ok _ _ hi, hread, hf.buf s]
      rw [← hf.withBuf, ih]
    · simp only [tailCopy, Config.C_eq, memRead_error _ (Nat.le_of_not_lt hr)]
      rfl

/-- A change of such registers goes through the handshake. -/
theorem handshake_comm {f : State → State} (hf : PassesHandshake f) (s : State) :
    handshake (f s) = (handshake s).map f := by
  unfold handshake
  rw [hf.drained s, hf.idx s]
  by_cases hd : s.drained = true
  · rw [if_pos hd, if_pos hd, ← tailCopy_comm hf]
    congr 1
    exact ((hf.comm s s.buf false (shiftCursor s.idx)).trans (by rw [← hf.buf s])).symm
  · rw [if_neg hd, if_neg hd]
    rfl

/-- SND_RD always finds its byte: every encodable address is in the store (R41, R78). -/
theorem execSndRd_eq (addr : BitVec 9) (s : State) :
    execSndRd addr s = .next (respond (some (.sample (bufByte s addr.toNat))) s) := by
  simp [execSndRd, memRead_ok s (show addr.toNat < 512 from addr.isLt)]

end Sys2Proof.Machine
end

