-- ==== Sys2Proof/Laws/Decode.lean ====
section
/-!
SUPPORT. The opcode map: no two rows share a word, so a word that selects a row decodes by it.
-/
namespace Sys2Proof

/-- No two rows of the opcode map can be selected by one word: some bit both masks look at differs (R53). -/
theorem rows_disjoint :
    rows.Pairwise fun r q => r.pattern &&& (r.mask &&& q.mask) ≠ q.pattern &&& (r.mask &&& q.mask) := by
  decide

theorem Row.Selects.not_other {r q : Row} {w : CmdWord}
    (hd : r.pattern &&& (r.mask &&& q.mask) ≠ q.pattern &&& (r.mask &&& q.mask)) (hr : r.Selects w) : ¬ q.Selects w := by
  intro hq
  apply hd
  rw [← hr, ← hq]
  ext i hi
  simp only [BitVec.getElem_and]
  cases w[i] <;> cases r.mask[i] <;> cases q.mask[i] <;> rfl

/-- Among rows no two of which share a word, the row a word selects is the one that is found. -/
theorem find?_selected {rs : List Row} {r : Row} {w : CmdWord}
    (hp : rs.Pairwise fun r q => r.pattern &&& (r.mask &&& q.mask) ≠ q.pattern &&& (r.mask &&& q.mask))
    (hr : r ∈ rs) (hw : r.Selects w) : rs.find? (fun q => decide (q.Selects w)) = some r := by
  induction rs with
  | nil => cases hr
  | cons q rs ih =>
    rw [List.pairwise_cons] at hp
    rcases List.mem_cons.1 hr with rfl | hr
    · exact List.find?_cons_of_pos (decide_eq_true hw)
    · have hq : ¬ q.Selects w := fun hq => Row.Selects.not_other (hp.1 r hr) hq hw
      rw [List.find?_cons_of_neg (by simpa using hq)]
      exact ih hp.2 hr

/-- A word that selects a row decodes by it (R60). -/
theorem decode_of_selects {r : Row} {w : CmdWord} (hr : r ∈ rows) (hw : r.Selects w) : decode w = .ok (r.build w) := by
  simp only [decode, find?_selected rows_disjoint hr hw]

/-- What decodes selects a row and is built by it (R60). -/
theorem decode_ok {w : CmdWord} {i : Instr} (h : decode w = .ok i) : ∃ r ∈ rows, r.Selects w ∧ r.build w = i := by
  unfold decode at h
  split at h
  · next r hr =>
    cases h
    exact ⟨r, List.mem_of_find?_eq_some hr, by simpa using List.find?_some hr, rfl⟩
  · cases h

/-- A word is rejected exactly when it selects no row (R54). -/
theorem decode_error_iff {w : CmdWord} : (∃ e, decode w = .error e) ↔ ∀ r ∈ rows, ¬ r.Selects w := by
  constructor
  · rintro ⟨e, he⟩ r hr hw
    rw [decode_of_selects hr hw] at he
    cases he
  · intro h
    cases hd : decode w with
    | error e => exact ⟨e, rfl⟩
    | ok i =>
      obtain ⟨r, hr, hw, -⟩ := decode_ok hd
      exact absurd hw (h r hr)

end Sys2Proof
end

