-- ==== Sys2Proof/Laws/Keyboard.lean ====
section
/-!
SUPPORT. What the shared operations of the keyboard half can do, said once: key lines bit by bit, the arbiter, one scan
line, and the latch after a whole scan.
-/
namespace Sys2Proof.Machine

theorem nibble_bits (b₀ b₁ b₂ b₃ : Bool) :
    let k : KeyLines := BitVec.ofBool b₃ ++ BitVec.ofBool b₂ ++ BitVec.ofBool b₁ ++ BitVec.ofBool b₀
    k.getLsbD 0 = b₀ ∧ k.getLsbD 1 = b₁ ∧ k.getLsbD 2 = b₂ ∧ k.getLsbD 3 = b₃ := by
  revert b₀ b₁ b₂ b₃; decide

/-- Bit `j` of the key lines is what sub-slot `j` says (R58). -/
theorem nibble_getLsbD (b : BitVec 2 → Bool) (j : BitVec 2) : (nibble b).getLsbD j.toNat = b j := by
  obtain ⟨h₀, h₁, h₂, h₃⟩ := nibble_bits (b 0) (b 1) (b 2) (b 3)
  have hj : j = 0 ∨ j = 1 ∨ j = 2 ∨ j = 3 := by revert j; decide
  rcases hj with rfl | rfl | rfl | rfl
  · exact h₀
  · exact h₁
  · exact h₂
  · exact h₃

/-- Key lines are equal when their four bits are. -/
theorem keyLines_ext {k l : KeyLines} (h : ∀ j : BitVec 2, k.getLsbD j.toNat = l.getLsbD j.toNat) : k = l := by
  apply BitVec.eq_of_getLsbD_eq
  intro i hi
  have hj : (BitVec.ofNat 2 i).toNat = i := by rw [BitVec.toNat_ofNat]; omega
  simpa only [hj] using h (BitVec.ofNat 2 i)

/-- A table of eight entries read after one of them is loaded. -/
theorem lines_set_get (v : Vector Line 8) (slot x : BitVec 3) (l : Line) :
    (v.set slot.toNat l slot.isLt)[x.toNat]'x.isLt = if x = slot then l else v[x.toNat]'x.isLt := by
  rw [Vector.getElem_set]
  by_cases h : x = slot
  · subst h; simp
  · rw [if_neg h, if_neg (fun e => h (BitVec.eq_of_toNat_eq e.symm))]

/-- Four masks read after one of them is loaded. -/
theorem masks_set_get (v : Vector Byte 4) (sub j : BitVec 2) (mask : Byte) :
    (v.set sub.toNat mask sub.isLt)[j.toNat]'j.isLt = if j = sub then mask else v[j.toNat]'j.isLt := by
  rw [Vector.getElem_set]
  by_cases h : j = sub
  · subst h; simp
  · rw [if_neg h, if_neg (fun e => h (BitVec.eq_of_toNat_eq e.symm))]

/-- The entries after a sub-slot mask load (R91). -/
theorem lineAt_setMask (slot x : BitVec 3) (sub : BitVec 2) (mask : Byte) (s : State) :
    lineAt (setMask slot sub mask s) x =
      if x = slot then { lineAt s slot with m := (lineAt s slot).m.set sub.toNat mask sub.isLt } else lineAt s x :=
  lines_set_get _ _ _ _

/-- The entries after a multikey flag load (R93). -/
theorem lineAt_setMultikey (slot x : BitVec 3) (mk : Bool) (s : State) :
    lineAt (setMultikey slot mk s) x = if x = slot then { lineAt s slot with multikey := mk } else lineAt s x :=
  lines_set_get _ _ _ _

/-- `IsCardinal(p)` with its direction: `p` is that direction's mask (R95). -/
theorem cardinal?_eq_some {p : Byte} {d : Direction} : cardinal? p = some d ↔ p = d.mask := by
  constructor
  · intro h
    unfold cardinal? at h
    repeat' split at h
    all_goals first | (cases h; assumption) | cases h
  · rintro rfl
    cases d <;> rfl

theorem cardinal?_ne_zero {p : Byte} {d : Direction} (h : cardinal? p = some d) : p ≠ 0#8 := by
  rw [cardinal?_eq_some.1 h]
  cases d <;> decide

/-- The arbiter is idempotent for a fixed direction (R106). -/
theorem resolve_resolve (joy : Byte) (d : Direction) : resolve (resolve joy d) d = resolve joy d := by
  revert joy
  cases d <;> decide

/-- What one arbitration can do: nothing, or resolve to the pressed direction and latch it (R96). -/
theorem arbitrate_cases (l : Line) (p joy : Byte) :
    arbitrate l p joy = (p, joy) ∨
    ∃ d, p = d.mask ∧ fourDir l = true ∧ arbitrate l p joy = (resolve joy d, resolve joy d) := by
  unfold arbitrate
  cases hc : cardinal? p with
  | none => exact .inl rfl
  | some d =>
    cases hf : fourDir l with
    | false => exact .inl rfl
    | true => exact .inr ⟨d, cardinal?_eq_some.1 hc, rfl, rfl⟩

/-- The latch after one driven line (R96, R98). -/
theorem lineKeys_latch (l : Line) (p joy : Byte) :
    (lineKeys l p joy).2 = joy ∨ ∃ d, p = d.mask ∧ (lineKeys l p joy).2 = resolve joy d := by
  unfold lineKeys
  cases l.multikey with
  | false => exact .inl rfl
  | true =>
    rcases arbitrate_cases l p joy with h | ⟨d, hp, -, h⟩
    · exact .inl (by simp [h])
    · exact .inr ⟨d, hp, by simp [h]⟩

theorem Direction.mask_injective {d e : Direction} (h : d.mask = e.mask) : d = e := by
  cases d <;> cases e <;> first | rfl | (exact absurd h (by decide))

/-- The latch after any number of scan lines: kept, or resolved once by the pressed direction (R99 (c)). -/
theorem scan_latch (s : State) (sel p : Byte) (xs : List (BitVec 3)) (acc : KeyLines × Byte) :
    (xs.foldl (scanLine s sel p) acc).2 = acc.2 ∨
    ∃ d, p = d.mask ∧ (xs.foldl (scanLine s sel p) acc).2 = resolve acc.2 d := by
  induction xs generalizing acc with
  | nil => exact .inl rfl
  | cons x xs ih =>
    have hone : (scanLine s sel p acc x).2 = acc.2 ∨
        ∃ d, p = d.mask ∧ (scanLine s sel p acc x).2 = resolve acc.2 d := by
      unfold scanLine
      split
      · exact lineKeys_latch _ _ _
      · exact .inl rfl
    rw [List.foldl_cons]
    rcases ih (scanLine s sel p acc x) with h | ⟨d, hp, h⟩
    · rw [h]; exact hone
    · rcases hone with h₁ | ⟨e, hp', h₁⟩
      · exact .inr ⟨d, hp, by rw [h, h₁]⟩
      · have hde : d = e := Direction.mask_injective (hp.symm.trans hp')
        subst hde
        exact .inr ⟨d, hp, by rw [h, h₁, resolve_resolve]⟩

/-- The latch after a probe's scan (R99, R100). -/
theorem matrixScan_latch (s : State) (sel p : Byte) :
    (matrixScan s sel p).2 = s.joy ∨ ∃ d, p = d.mask ∧ (matrixScan s sel p).2 = resolve s.joy d := by
  have h := scan_latch s sel p scanOrder (0#4, s.joy)
  unfold matrixScan
  by_cases hs : sel = 0#8
  · simpa only [if_pos hs] using h
  · simpa only [if_neg hs] using h

/-- A matrix probe always answers; it changes at most the latch and the response (R99). -/
theorem execKprobe_eq (sel : Byte) (s : State) : ∃ k joy,
    execKprobe sel s = .next (respond (some (.keyLines k)) { s with joy := joy }) ∧
    (joy = s.joy ∨ ∃ d, pressed s = d.mask ∧ joy = resolve s.joy d) := by
  by_cases hp : pressed s = 0#8
  · exact ⟨0#4, s.joy, by simp [execKprobe, hp], .inl rfl⟩
  · exact ⟨(matrixScan s sel (pressed s)).1, (matrixScan s sel (pressed s)).2, by simp only [execKprobe, hp, if_false],
      matrixScan_latch s sel _⟩

/-- KBD_LDS on its two slots, and on a slot it does not have (R92). -/
theorem execKbdLds_cases (slot : BitVec 4) (mask : Byte) (s : State) :
    (slot = 8#4 ∧ execKbdLds slot mask s = .next (respond none { s with key8 := mask })) ∨
    (slot = 9#4 ∧ execKbdLds slot mask s = .next (respond none { s with key9 := mask })) ∨
    (slot ≠ 8#4 ∧ slot ≠ 9#4 ∧ execKbdLds slot mask s = .fault (.noSuchSlot slot.toNat)) := by
  by_cases h₈ : slot = 8#4
  · exact .inl ⟨h₈, by simp [execKbdLds, setKey, h₈]⟩
  · by_cases h₉ : slot = 9#4
    · exact .inr (.inl ⟨h₉, by simp [execKbdLds, setKey, h₉]⟩)
    · exact .inr (.inr ⟨h₈, h₉, by simp [execKbdLds, setKey, h₈, h₉]⟩)

end Sys2Proof.Machine
end

