-- ==== Sys2Proof/Laws/PerInstr.lean ====
section
/-!
SUPPORT. One family of statements over all operations: a well-formed operation's command word selects a row of the
opcode map (spec/30_encoding.md R53, R54), so that no well-formed operation encodes to an illegal word.
-/
namespace Sys2Proof.Laws.Encodes

/-- The word of a well-formed operation selects some row of the opcode map. -/
def Statement (i : Instr) : Prop := WellFormed i → ∃ r ∈ rows, r.Selects (encode i)

theorem sndInit : Statement .sndInit := fun _ => by decide
theorem sndCfg (mode : BitVec 3) (mel : Bool) : Statement (.sndCfg mode mel) := fun _ => by
  revert mode mel; decide
theorem sndWr (data : Byte) : Statement (.sndWr data) := fun _ =>
  ⟨rows[2], by simp [rows], by revert data; decide⟩
theorem sndAck : Statement .sndAck := fun _ => by decide
theorem sndRd (addr : BitVec 9) : Statement (.sndRd addr) := fun _ =>
  ⟨rows[4], by simp [rows], by revert addr; decide⟩
theorem spkLd (data : Byte) : Statement (.spkLd data) := fun _ =>
  ⟨rows[5], by simp [rows], by revert data; decide⟩
theorem kbdLdm (slot : BitVec 3) (sub : BitVec 2) (mask : Byte) : Statement (.kbdLdm slot sub mask) := fun _ => by
  refine ⟨rows[6], by simp [rows], ?_⟩
  have h₁ : ∀ x : BitVec 3, x.setWidth 32 <<< 16 &&& 0xFFF8FC00#32 = 0#32 := by decide
  have h₂ : ∀ x : BitVec 2, x.setWidth 32 <<< 8 &&& 0xFFF8FC00#32 = 0#32 := by decide
  have h₃ : ∀ x : Byte, x.setWidth 32 &&& 0xFFF8FC00#32 = 0#32 := by decide
  show encode (.kbdLdm slot sub mask) &&& 0xFFF8FC00#32 = 0x80000000#32
  simp only [encode, BitVec.and_or_distrib_right, h₁, h₂, h₃]
  rfl
theorem kbdLds (slot : BitVec 4) (mask : Byte) : Statement (.kbdLds slot mask) := fun h => by
  refine ⟨rows[7], by simp [rows], ?_⟩
  rcases h with rfl | rfl <;> (revert mask; decide)
theorem kbdLdf (slot : BitVec 3) (mk : Bool) : Statement (.kbdLdf slot mk) := fun _ =>
  ⟨rows[8], by simp [rows], by revert slot mk; decide⟩
theorem btnSet (btn : BitVec 10) : Statement (.btnSet btn) := fun _ =>
  ⟨rows[9], by simp [rows], by revert btn; decide⟩
theorem kprobe (sel : Byte) : Statement (.kprobe sel) := fun _ =>
  ⟨rows[10], by simp [rows], by revert sel; decide⟩
theorem kprobeA : Statement .kprobeA := fun _ => by decide
theorem kprobeB : Statement .kprobeB := fun _ => by decide

end Sys2Proof.Laws.Encodes
end

