-- ==== Sys2Proof/Laws/Step.lean ====
section
/-!
SUPPORT. What executing one operation, and one step of the machine, can do, said once; later proofs cite these and
unfold neither `exec` nor `step`.
-/
namespace Sys2Proof.Machine

/-- Everything an operation that answers a next state has done; for SND_WR see `execSndWr_cases`. -/
theorem exec_next {i : Instr} {s t : State} (h : exec i s = .next t) :
    match i with
    | .sndInit => t = respond none (soundInit s)
    | .sndCfg mode mel => t = respond none { s with mode := mode, mel := mel }
    | .sndWr data => execSndWr data s = .next t
    | .sndAck => t = respond none (setDrained s)
    | .sndRd addr => t = respond (some (.sample (bufByte s addr.toNat))) s
    | .spkLd data => t = respond none { s with spk := data }
    | .kbdLdm slot sub mask => t = respond none (setMask slot sub mask s)
    | .kbdLds slot mask =>
      (slot = 8#4 ∧ t = respond none { s with key8 := mask }) ∨ (slot = 9#4 ∧ t = respond none { s with key9 := mask })
    | .kbdLdf slot mk => t = respond none (setMultikey slot mk s)
    | .btnSet btn => t = respond none { s with btn := btn }
    | .kprobe _ => ∃ k joy, t = respond (some (.keyLines k)) { s with joy := joy } ∧
        (joy = s.joy ∨ ∃ d : Direction, pressed s = d.mask ∧ joy = resolve s.joy d)
    | .kprobeA => t = respond (some (.keyBit (keyBit s.key9 (pressed s)))) s
    | .kprobeB => t = respond (some (.keyBit (keyBit s.key8 (pressed s)))) s := by
  cases i with
  | sndWr data => exact h
  | sndRd addr =>
    rw [exec, execSndRd_eq] at h
    injection h with h; exact h.symm
  | kbdLds slot mask =>
    rcases execKbdLds_cases slot mask s with ⟨hs, he⟩ | ⟨hs, he⟩ | ⟨-, -, he⟩ <;> rw [exec, he] at h
    · injection h with h; exact .inl ⟨hs, h.symm⟩
    · injection h with h; exact .inr ⟨hs, h.symm⟩
    · cases h
  | kprobe sel =>
    obtain ⟨k, joy, he, hj⟩ := execKprobe_eq sel s
    rw [exec, he] at h
    injection h with h; exact ⟨k, joy, h.symm, hj⟩
  | _ => injection h with h; exact h.symm

/-- Everything a step that answers a next state has done. -/
theorem step_next {s t : State} (h : step s = .next t) :
    (s.inputs = [] ∧ t = s) ∨
    (∃ rest, s.inputs = .powerOnReset :: rest ∧ t = powerOn { s with inputs := rest }) ∨
    (∃ w rest i, s.inputs = .command w :: rest ∧ decode w = .ok i ∧ exec i { s with inputs := rest } = .next t) ∨
    (∃ w rest e, s.inputs = .command w :: rest ∧ decode w = .error e ∧
      t = raise .illegalCommand { s with inputs := rest }) := by
  unfold step takeInput at h
  cases hs : s.inputs with
  | nil =>
    simp only [hs] at h
    injection h with h; exact .inl ⟨rfl, h.symm⟩
  | cons x rest =>
    cases x with
    | powerOnReset =>
      simp only [hs] at h
      injection h with h; exact .inr (.inl ⟨rest, rfl, h.symm⟩)
    | command w =>
      simp only [hs] at h
      cases hd : decode w with
      | ok i =>
        simp only [hd] at h
        exact .inr (.inr (.inl ⟨w, rest, i, rfl, hd, h⟩))
      | error e =>
        simp only [hd] at h
        injection h with h; exact .inr (.inr (.inr ⟨w, rest, e, rfl, hd, h.symm⟩))

end Sys2Proof.Machine
end

