-- ==== Sys2Proof/Tests/Slice0.lean ====
section
/-!
SUPPORT. The model's own tests. Expected values come from spec/30_encoding.md R64, spec/95_test_vectors.md (the vector is
named at each test) and the examples of the operation rules. At the end, one witness for each statement that has hypotheses.
-/
namespace Sys2Proof.Machine.Tests
open Sys2Proof Sys2Proof.Machine

/-- The reset state with the speaker latch loaded, for tests. -/
def st : State := { State.reset with spk := 0#8 }

/-- The outcome is a next state that meets `p`. -/
def answers (o : Host.Outcome State Fault Refusal) (p : State → Bool) : Bool :=
  match o with
  | .next t => p t
  | .fault _ => false
  | .refused _ => false

/-- The table of spec/95_test_vectors.md 2.4. -/
def table : Vector Line 8 := #v[
  ⟨#v[0x01#8, 0x02#8, 0x04#8, 0x08#8], true⟩,
  ⟨#v[0x03#8, 0x06#8, 0x09#8, 0x0C#8], true⟩,
  ⟨#v[0x10#8, 0x20#8, 0x40#8, 0x80#8], false⟩,
  ⟨#v[0x30#8, 0x10#8, 0x20#8, 0x00#8], true⟩,
  ⟨#v[0x11#8, 0x01#8, 0x00#8, 0x00#8], false⟩,
  Line.absent, Line.absent, Line.absent]

/-- A state with that table, `KMT[8].k` = 0x80 and `KMT[9].k` = 0x40. -/
def kst (joy : Byte) (btn : BitVec 10) : State :=
  { st with lines := table, key8 := 0x80#8, key9 := 0x40#8, joy := joy, btn := btn }

/-- A probe answers `k` and leaves the latch at `joy`. -/
def probes (s : State) (sel : Byte) (k : KeyLines) (joy : Byte) : Bool :=
  answers (exec (.kprobe sel) s) fun t => t.response == some (.keyLines k) && t.joy == joy

/-! ## Well-formedness -/

theorem test_wf_kbdLds_refuses_slot_three : ¬ WellFormed (.kbdLds 3#4 0x80#8) := by decide
theorem test_wf_kbdLds_takes_slot_nine : WellFormed (.kbdLds 9#4 0x80#8) := by decide

/-! ## Decoding: words written out bit by bit from the formats of R51 -/

/-- E2: OP 0010, MELV 1 at bit 8, MODEV 101. -/
theorem test_decode_sndCfg :
    decode 0b00100000000000000000000100000101#32 = .ok (.sndCfg 5#3 true) := by rfl
/-- E1: OP 0011, DATA 1010 0101. -/
theorem test_decode_sndWr : decode 0b00110000000000000000000010100101#32 = .ok (.sndWr 0xA5#8) := by rfl
/-- E3: OP 0101, ADDR 1 0000 0000. -/
theorem test_decode_sndRd : decode 0b01010000000000000000000100000000#32 = .ok (.sndRd 256#9) := by rfl
/-- E4: OP 1000, SLOT 011 at bit 16, SUB 01 at bit 8, MASK 0000 1100. -/
theorem test_decode_kbdLdm :
    decode 0b10000000000000110000000100001100#32 = .ok (.kbdLdm 3#3 1#2 0x0C#8) := by rfl
/-- E5: OP 1000, bits 19:17 = 100, SLOT0 1. -/
theorem test_decode_kbdLds : decode 0b10000000000010010000000000000000#32 = .ok (.kbdLds 9#4 0#8) := by rfl
/-- E6: OP 1001, SLOT 111, MK 0. -/
theorem test_decode_kbdLdf : decode 0b10010000000001110000000000000000#32 = .ok (.kbdLdf 7#3 false) := by rfl
/-- E7: OP 1010, BTNV all ones. -/
theorem test_decode_btnSet : decode 0b10100000000000000000001111111111#32 = .ok (.btnSet 0x3FF#10) := by rfl
/-- E8: OP 1011, S all ones. -/
theorem test_decode_kprobe : decode 0b10110000000000000000000011111111#32 = .ok (.kprobe 0xFF#8) := by rfl
/-- The operations without operands, and SPK_LD of R64. -/
theorem test_decode_no_operand :
    decode 0b00010000000000000000000000000000#32 = .ok .sndInit ∧
    decode 0b01000000000000000000000000000000#32 = .ok .sndAck ∧
    decode 0b11000000000000000000000000000000#32 = .ok .kprobeA ∧
    decode 0b11010000000000000000000000000000#32 = .ok .kprobeB ∧
    decode 0b01100000000000000000000000000010#32 = .ok (.spkLd 0x02#8) := ⟨rfl, rfl, rfl, rfl, rfl⟩
/-- E9 to E15, with the class of R54 each falls under. -/
theorem test_decode_illegal :
    decode 0x50000200#32 = .error .reservedBits ∧ decode 0xA0000400#32 = .error .reservedBits ∧
    decode 0x80040400#32 = .error .reservedBits ∧ decode 0x800B0001#32 = .error .reservedSlot ∧
    decode 0x90000002#32 = .error .reservedBits ∧ decode 0xC0000001#32 = .error .reservedBits ∧
    decode 0x00000000#32 = .error .reservedOpcode := ⟨rfl, rfl, rfl, rfl, rfl, rfl, rfl⟩
/-- R33: the most significant byte comes first. -/
theorem test_decode_bytes :
    decodeBytes [0x80#8, 0x01#8, 0x02#8, 0x09#8, 0xAA#8] = .ok (.kbdLdm 1#3 2#2 0x09#8, [0xAA#8]) := by rfl
/-- R64: words of the worked encodings. -/
theorem test_encode :
    encode (.kbdLdm 7#3 3#2 0x80#8) = 0x80070380#32 ∧ encode (.kbdLds 8#4 0x80#8) = 0x80080080#32 ∧
    encode (.kbdLdf 1#3 true) = 0x90010001#32 ∧ encode (.sndCfg 0#3 true) = 0x20000100#32 ∧
    encode (.btnSet (Button.left.mask ||| Button.a.mask)) = 0xA0000011#32 := ⟨rfl, rfl, rfl, rfl, rfl⟩

/-! ## The port -/

theorem test_decodeTableWord : decodeTableWord 32 0x300000A5 = some (.sndWr 0xA5#8) := by rfl
/-- The word presented at reset is the first operation run (R72). -/
theorem test_first_step : answers (step (State.reset.withFetchWord 32 0x60000002))
    (fun t => t.spk == 0x02#8 && t.inputs == []) = true := by rfl
/-- P5: the word 0x70000000 sets FAULT[1]. -/
theorem test_illegal_step : answers (step (presentNext 0x70000000#32 st)) (fun t => t.fault == 0b10#2) = true := by rfl
/-- R20, R131: power-on reset clears FAULT. -/
theorem test_power_on : answers (step { st with fault := 0b11#2, idx := 9#10, inputs := [.powerOnReset] })
    (fun t => t.fault == 0#2 && t.idx == 0#10) = true := by rfl

/-! ## Audio operations -/

/-- B14. -/
theorem test_sndInit : answers (exec .sndInit { st with idx := 512#10, fault := 0b01#2 })
    (fun t => t.idx == 0#10 && !t.drained && t.fault == 0b01#2) = true := by rfl
/-- R71's example. -/
theorem test_sndCfg : answers (exec (.sndCfg 4#3 false) st) (fun t => t.mode == 4#3 && !t.mel) = true := by rfl
/-- R72's example, with P4's first SND_WR. -/
theorem test_spkLd : answers (exec (.spkLd 0x02#8) { st with mode := 4#3 })
    (fun t => t.spk == 0x02#8 && emitted 0x01#8 t == 0x03#8) = true := by rfl
/-- A1 to A7: one cell of each row. -/
theorem test_routing :
    route false 1#3 0#8 0xFF#8 = 1#8 ∧ route false 2#3 0#8 0xFD#8 = 0#8 ∧ route false 3#3 0#8 0xFF#8 = 3#8 ∧
    route false 4#3 0xFF#8 0x02#8 = 0xFE#8 ∧ route false 5#3 0x03#8 0x02#8 = 0x01#8 ∧
    route false 6#3 0xFF#8 0x03#8 = 1#8 ∧ route true 4#3 0xFF#8 0x00#8 = 0x00#8 := by decide
/-- B9: the tail byte moves to the start and is kept where it was (B16). -/
theorem test_sndWr_tail : answers
    (exec (.sndWr 0xAA#8) { st with idx := 257#10, drained := true, mel := true, buf := [(256, 0xE0#8)] })
    (fun t => t.idx == 2#10 && !t.drained && t.buf == [(0, 0xE0#8), (1, 0xAA#8), (256, 0xE0#8)]) = true := by decide
/-- B8: the store is full and nothing was drained. -/
theorem test_sndWr_overrun : answers (exec (.sndWr 0xAA#8) { st with idx := 512#10, mel := true })
    (fun t => t.idx == 512#10 && t.fault == 0b01#2 && t.buf == [] && t.spk == 0#8) = true := by decide
/-- B12. -/
theorem test_sndAck : answers (exec .sndAck { st with idx := 300#10 })
    (fun t => t.idx == 300#10 && t.drained) = true := by rfl
/-- R78's example. -/
theorem test_sndRd : answers (exec (.sndRd 0#9) { st with buf := [(0, 0x03#8)] })
    (fun t => t.response == some (.sample 0x03#8)) = true := by decide
/-- B15: a byte nothing has written reads as the free value of its draw. -/
theorem test_sndRd_unwritten : exec (.sndRd 300#9) State.reset =
    .next { State.reset with response := some (.sample (Config.freeSample 0 300)) } := by rfl

/-! ## Keyboard operations -/

/-- R90's example. -/
theorem test_btnSet : answers (exec (.btnSet 0x011#10) st) (fun t => t.btn == 0x011#10) = true := by rfl
/-- R91's example. -/
theorem test_kbdLdm : answers (exec (.kbdLdm 1#3 2#2 0x09#8) st)
    (fun t => subMask (lineAt t 1) 2 == 0x09#8 && subMask (lineAt t 1) 1 == 0#8) = true := by decide
/-- R92's example. -/
theorem test_kbdLds : answers (exec (.kbdLds 9#4 0x40#8) st)
    (fun t => t.key9 == 0x40#8 && t.key8 == 0#8) = true := by rfl
/-- R93's example. -/
theorem test_kbdLdf : answers (exec (.kbdLdf 1#3 true) st)
    (fun t => (lineAt t 1).multikey && !(lineAt t 0).multikey) = true := by decide
/-- K4, K7, K15, K18: the arbiter, and lines OR-ed together. -/
theorem test_kprobe_matrix :
    probes (kst 0x03#8 0x008#10) 0x01#8 0b0000#4 0x09#8 = true ∧
    probes (kst 0x03#8 0x004#10) 0x02#8 0b0010#4 0x06#8 = true ∧
    probes (kst 0x02#8 0x011#10) 0x18#8 0b0011#4 0x02#8 = true ∧
    probes (kst 0x02#8 0x001#10) 0x03#8 0b0001#4 0x03#8 = true := by decide
/-- K16 (the resolved mask is the line's own), K19 (fallback), K21 (PAUSE and POWER only). -/
theorem test_kprobe_edges :
    probes (kst 0x02#8 0x001#10) 0x05#8 0b0000#4 0x03#8 = true ∧
    probes (kst 0x0C#8 0x001#10) 0x00#8 0b0101#4 0x0C#8 = true ∧
    probes (kst 0x03#8 0x300#10) 0xFF#8 0b0000#4 0x03#8 = true := by decide
/-- Q2, Q5, Q6. -/
theorem test_kprobeA :
    (answers (exec .kprobeA (kst 0#8 0x040#10)) fun t => t.response == some (.keyBit 0#1)) = true ∧
    (answers (exec .kprobeA (kst 0#8 0x041#10)) fun t => t.response == some (.keyBit 1#1)) = true ∧
    (answers (exec .kprobeA (kst 0#8 0x340#10)) fun t => t.response == some (.keyBit 0#1)) = true := by decide
/-- Q3, Q4. -/
theorem test_kprobeB :
    (answers (exec .kprobeB (kst 0#8 0x080#10)) fun t => t.response == some (.keyBit 0#1)) = true ∧
    (answers (exec .kprobeB (kst 0#8 0x0C0#10)) fun t => t.response == some (.keyBit 1#1)) = true := by decide

/-! ## Trace syntax (R61, R62) -/

theorem test_lineText : lineText (.kbdLdm 1#3 2#2 0x09#8) = "KBD_LDM 1, 2, 9" := by rfl
theorem test_pseudo : (sndWrn 2 fun i => BitVec.ofNat 8 i) = [.sndWr 0#8, .sndWr 1#8] ∧ drain.length = 257 :=
  ⟨by decide, by simp [drain]⟩
theorem test_agents : agentOf (.sndWr 0#8) = .cpuCore ∧ agentOf (.sndRd 0#9) = .audioSink := by decide

/-! ## Witnesses: hypotheses of the statements are met -/

theorem witness_encode : WellFormed (.kbdLds 8#4 0xFF#8) ∧ decode 0x80080001#32 = .ok (.kbdLds 8#4 0x01#8) := ⟨by decide, rfl⟩
theorem witness_two_rows : (rows[7]'(by decide)).Selects 0x80090040#32 := by decide
/-- One word of each class of R54, at the boundary of its range: reserved opcodes; a lowest must-be-0 bit of formats N, D, A, B
and C (both of its gaps); slots 10 and 15; formats K, S and F. -/
theorem witness_illegal :
    (IllegalWord 0x00000000#32 ∧ IllegalWord 0x7FFFFFFF#32 ∧ IllegalWord 0xE0000000#32 ∧ IllegalWord 0xF0000000#32) ∧
    (IllegalWord 0x10000001#32 ∧ IllegalWord 0x30000100#32 ∧ IllegalWord 0x50000200#32 ∧ IllegalWord 0xA0000400#32) ∧
    (IllegalWord 0x20000200#32 ∧ IllegalWord 0x20000008#32 ∧ IllegalWord 0x800A0000#32 ∧ IllegalWord 0x800F0000#32) ∧
    (IllegalWord 0x80070400#32 ∧ IllegalWord 0x80080100#32 ∧ IllegalWord 0x80090100#32) ∧
    (IllegalWord 0x90080000#32 ∧ IllegalWord 0x90070002#32 ∧ IllegalWord 0x80100000#32) :=
  ⟨⟨by decide, by decide, by decide, by decide⟩, ⟨by decide, by decide, by decide, by decide⟩, ⟨by decide, by decide, by decide, by decide⟩,
    ⟨by decide, by decide, by decide⟩, ⟨by decide, by decide, by decide⟩⟩
/-- The last legal word before each of those. -/
theorem witness_legal :
    (¬ IllegalWord 0x10000000#32 ∧ ¬ IllegalWord 0x300000FF#32 ∧ ¬ IllegalWord 0x500001FF#32) ∧
    (¬ IllegalWord 0xA00003FF#32 ∧ ¬ IllegalWord 0x20000107#32 ∧ ¬ IllegalWord 0x800703FF#32) ∧
    (¬ IllegalWord 0x800900FF#32 ∧ ¬ IllegalWord 0x90070001#32) :=
  ⟨⟨by decide, by decide, by decide⟩, ⟨by decide, by decide, by decide⟩, ⟨by decide, by decide⟩⟩
theorem witness_illegal_step : (presentNext 0x800A0000#32 st).inputs = [.command 0x800A0000#32] := rfl
theorem witness_step : (presentNext 0xC0000000#32 st).inputs = [.command 0xC0000000#32] ∧
    decode 0xC0000000#32 = .ok .kprobeA := ⟨rfl, rfl⟩
theorem witness_idle : st.inputs = [] := rfl
theorem witness_power_on : ({ st with inputs := [.powerOnReset] } : State).inputs = .powerOnReset :: [] := rfl
theorem witness_store : ({ st with idx := 511#10 } : State).drained = false ∧
    ({ st with idx := 511#10 } : State).idx.toNat < 512 ∧ ({ st with idx := 512#10 } : State).idx.toNat = 512 := by decide
theorem witness_drain : ∀ c ∈ [0#10, 256#10, 257#10, 512#10],
    ({ st with idx := c, drained := true } : State).drained = true ∧
    ({ st with idx := c, drained := true } : State).idx.toNat ≤ 512 := by decide
theorem witness_outside : 512 < ({ st with idx := 513#10 } : State).idx.toNat := by decide
/-- A SND_WR from the small state, with the record and the flag of a first write. -/
theorem witness_sndWr_next (data : Byte) : ∃ t, exec (.sndWr data) { st with mel := true } = .next t ∧ NoFault t :=
  ⟨_, execSndWr_stores (s := { st with mel := true }) data rfl (by decide), rfl⟩
/-- The same in melody mode with the cursor at 512: an overrun with no drain to take, a store with one. -/
theorem witness_melody_at_512 (data : Byte) :
    (∃ t, exec (.sndWr data) { st with mel := true, idx := 512#10 } = .next t) ∧
    ∃ t, exec (.sndWr data) { st with mel := true, idx := 512#10, drained := true } = .next t := by
  obtain ⟨t, ht, -⟩ := execSndWr_drains (s := { st with mel := true, idx := 512#10, drained := true }) data rfl (by decide)
  exact ⟨⟨_, execSndWr_overruns (s := { st with mel := true, idx := 512#10 }) data rfl rfl⟩, t, ht⟩
theorem witness_read_back (data : Byte) : ({ st with mel := true } : State).drained = false ∧
    ({ st with mel := true } : State).mel = true ∧ ({ st with mel := true } : State).idx.toNat = (0#9).toNat ∧
    ∃ t, exec (.sndWr data) { st with mel := true } = .next t :=
  ⟨rfl, rfl, rfl, _, execSndWr_stores (s := { st with mel := true }) data rfl (by decide)⟩
/-- The two latch modes, melody and another mode, over a run that loads neither latch nor mode. -/
theorem witness_fixed_mode : ∀ m ∈ [4#3, 5#3, 1#3], ∃ t,
    runOps [.sndAck, .kprobeA] { st with mode := m } = some t ∧
    ∀ i ∈ [Instr.sndAck, .kprobeA], (∀ d, i ≠ .spkLd d) ∧ ∀ m e, i ≠ .sndCfg m e :=
  fun _ _ => ⟨_, rfl, by simp⟩
theorem witness_deadline : runOps [.sndAck, .sndWr 1#8] st ≠ none ∧ st.idx = 0#10 ∧ st.drained = false ∧ NoFault st ∧
    (∀ i ∈ [Instr.sndAck, .sndWr 1#8], WellFormed i) ∧ KeepsDeadline [.sndAck, .sndWr 1#8] 0 st := by
  refine ⟨by simp [runOps, exec, execSndAck, nextOf, execSndWr, handshake, setDrained, respond, st, State.reset,
    shiftCursor, tailCopy, storeSample, storeAtCursor, memWrite, finish], rfl, rfl, rfl, by simp [WellFormed], by decide, ?_⟩
  intro t ht
  cases ht
  exact ⟨by decide, fun _ _ => trivial⟩
theorem witness_512_writes : st.idx = 0#10 ∧ st.drained = false ∧ (List.replicate 512 (0#8 : Byte)).length = 512 :=
  ⟨rfl, rfl, List.length_replicate⟩

/-- `n` paced writes from a state with nothing to drain. -/
theorem paced_writes (n : Nat) (s : State) (g : SampleStream) (hd : s.drained = false) (hi : s.idx.toNat + n ≤ 512) :
    ∃ ops t h, StreamRun ops s g t h ∧ t.drained = false ∧ t.idx.toNat = s.idx.toNat + n := by
  induction n generalizing s g with
  | zero => exact ⟨[], s, g, .done s g, hd, rfl⟩
  | succ n ih =>
    have hlt : s.idx.toNat < 512 := by omega
    have hx := execSndWr_stores 0#8 hd hlt
    have hc := cursor_succ hlt
    obtain ⟨u, hu, hud, hui⟩ : ∃ u, exec (.sndWr 0#8) s = .next u ∧ u.drained = false ∧ u.idx = s.idx + 1#10 :=
      ⟨_, hx, hd, rfl⟩
    obtain ⟨ops, t, h, hr, ht, he⟩ := ih u (streamAfter (.sndWr 0#8) s g) hud (by rw [hui]; omega)
    refine ⟨.sndWr 0#8 :: ops, t, h, .op _ _ _ _ _ _ _ (.inr hlt) hu hr, ht, ?_⟩
    rw [he, hui]
    omega

/-- A paced run that ends with the host window full and no drain pending. -/
theorem witness_stream : ∃ ops t h, st.idx = 0#10 ∧ st.drained = false ∧ StreamRun ops st ⟨[], 0⟩ t h ∧
    256 ≤ t.idx.toNat ∧ t.drained = false ∧ (255#9).toNat < 256 := by
  obtain ⟨ops, t, h, hr, hd, hi⟩ := paced_writes 256 st ⟨[], 0⟩ rfl (by decide)
  exact ⟨ops, t, h, rfl, rfl, hr, by rw [hi]; exact Nat.le_add_left _ _, hd, by decide⟩

theorem witness_other_slot : (3#4 : BitVec 4) ≠ 8#4 ∧ (3#4 : BitVec 4) ≠ 9#4 := by decide
theorem witness_nothing_pressed : (kst 0x03#8 0x300#10).btn.extractLsb' 0 8 = 0#8 := by decide
theorem witness_matrix_moves : pressed (kst 0x01#8 0x002#10) ≠ 0#8 ∧ (0x01#8 : Byte) ≠ 0#8 ∧
    MovesLatch (kst 0x01#8 0x002#10) 0x01#8 :=
  ⟨by decide, by decide, by decide, 0, by decide, by decide, by decide⟩
theorem witness_matrix_keeps : pressed (kst 0x01#8 0x030#10) ≠ 0#8 ∧ (0x04#8 : Byte) ≠ 0#8 ∧
    ¬ MovesLatch (kst 0x01#8 0x030#10) 0x04#8 :=
  ⟨by decide, by decide, fun h => absurd h.1 (by decide)⟩
/-- A probe of an absent line, and the fallback with slot 1 empty. -/
theorem witness_unused : (∀ x : BitVec 3, (0xE0#8 : Byte).getLsbD x.toNat = true ∨ ((0xE0#8 : Byte) = 0#8 ∧ x = 1#3) →
      ∀ j : BitVec 2, subMask (lineAt (kst 0#8 0x001#10) x) j = 0#8) ∧
    (∀ j : BitVec 2, subMask (lineAt { st with btn := 1#10 } 1) j = 0#8) ∧
    probes (kst 0#8 0x001#10) 0xE0#8 0#4 0#8 = true := by decide
theorem witness_latch : JoyLegal (kst 0x09#8 0x004#10).joy ∧ (kst 0x09#8 0x004#10).joy &&& 0x05#8 ≠ 0#8 ∧
    (kst 0x09#8 0x004#10).joy &&& 0x0A#8 ≠ 0#8 ∧ probes (kst 0x09#8 0x004#10) 0x01#8 0#4 0x0C#8 = true := by decide
theorem witness_probe_next (i : Instr) (h : i = .kprobe 0x01#8 ∨ i = .kprobeA ∨ i = .kprobeB) :
    ∃ t, exec i (kst 0x01#8 0x002#10) = .next t := by
  rcases h with rfl | rfl | rfl
  · obtain ⟨k, joy, he, -⟩ := execKprobe_eq 0x01#8 (kst 0x01#8 0x002#10)
    exact ⟨_, he⟩
  · exact ⟨_, rfl⟩
  · exact ⟨_, rfl⟩
theorem witness_pause : (0x341#10 : BitVec 10).extractLsb' 0 8 = (kst 0#8 0x041#10).btn.extractLsb' 0 8 ∧
    ∃ t, exec .kprobeA (kst 0#8 0x041#10) = .next t := ⟨by decide, _, rfl⟩
/-- Two different audio halves beside one keyboard half, and the other way round. -/
theorem witness_halves : SameKeyboard (kst 0#8 0x041#10) { kst 0#8 0x041#10 with idx := 7#10 } ∧
    SameAudio st (kst 0#8 0x041#10) ∧ (kst 0#8 0x041#10).draws = st.draws ∧
    (∃ t, exec .kprobeA (kst 0#8 0x041#10) = .next t) ∧ ∃ t, exec .kprobeA { kst 0#8 0x041#10 with idx := 7#10 } = .next t :=
  ⟨⟨rfl, rfl, rfl, rfl, rfl⟩, ⟨fun _ => rfl, rfl, rfl, rfl, rfl, rfl⟩, rfl, ⟨_, rfl⟩, ⟨_, rfl⟩⟩
/-- A step that records a fault beside one recorded before. -/
theorem witness_precise : ∃ t, step (presentNext 0x70000000#32 { st with fault := 0b01#2 }) = .next t ∧
    t.fault ≠ 0b01#2 ∧ ∀ rest, (presentNext 0x70000000#32 { st with fault := 0b01#2 }).inputs ≠ .powerOnReset :: rest :=
  ⟨_, rfl, by decide, fun _ h => by cases h⟩
/-- A state with a written byte, a moved cursor and a latched diagonal meets the invariants, and its step answers. -/
theorem witness_inv : Inv { st with buf := [(0, 0xE0#8)], idx := 1#10, joy := 0x09#8 } ∧
    Filled { st with buf := [(0, 0xE0#8)], idx := 1#10, joy := 0x09#8 } ∧
    ∃ t, step { st with buf := [(0, 0xE0#8)], idx := 1#10, joy := 0x09#8 } = .next t := by
  refine ⟨⟨by decide, by decide, by decide⟩, fun a ha => ?_, _, rfl⟩
  have ha : a < 1 := ha
  obtain rfl : a = 0 := by omega
  rfl

end Sys2Proof.Machine.Tests
end

section
/-!
The block's progress and its dispatch: one equation of `step` for each kind of input (spec/00_scope.md R4,
spec/20_memory.md R36, spec/30_encoding.md R60), what the decoder builds is well-formed (R54), and a well-formed
operation always answers while the cursor is in its range (R12).
-/
namespace Sys2Proof.Machine

/-! ### One step, by the oldest input -/

theorem takeInput_nil {s : State} (h : s.inputs = []) : takeInput s = none := by
  simp only [takeInput, h]

theorem takeInput_cons {s : State} {x : Input} {rest : List Input} (h : s.inputs = x :: rest) :
    takeInput s = some (x, { s with inputs := rest }) := by
  simp only [takeInput, h]

theorem step_idle {s : State} (h : s.inputs = []) : step s = .next s := by
  simp only [step, takeInput_nil h]

theorem step_powerOnReset {s : State} {rest : List Input} (h : s.inputs = .powerOnReset :: rest) :
    step s = .next (powerOn { s with inputs := rest }) := by
  simp only [step, takeInput_cons h]

theorem step_command_ok {s : State} {w : CmdWord} {rest : List Input} {i : Instr}
    (h : s.inputs = .command w :: rest) (hd : decode w = .ok i) : step s = exec i { s with inputs := rest } := by
  simp only [step, takeInput_cons h, hd]

theorem step_command_error {s : State} {w : CmdWord} {rest : List Input} {e : Reject}
    (h : s.inputs = .command w :: rest) (hd : decode w = .error e) :
    step s = .next (raise .illegalCommand { s with inputs := rest }) := by
  simp only [step, takeInput_cons h, hd]

/-! ### What decodes is well-formed (R54) -/

/-- The slot number of format S is that of a single-key slot (R51, R52). -/
theorem keySlotField_eq (w : CmdWord) : keySlotField w = 8#4 ∨ keySlotField w = 9#4 := by
  unfold keySlotField
  split
  · exact .inr rfl
  · exact .inl rfl

/-- Every row builds a well-formed operation; only the row of KBD_LDS has an operand that could be wrong. -/
theorem Row.build_wellFormed {r : Row} (hr : r ∈ rows) (w : CmdWord) : WellFormed (r.build w) := by
  have hall : ∀ r ∈ rows, WellFormed (r.build w) := by simp [rows, WellFormed, keySlotField_eq]
  exact hall r hr

theorem decode_wellFormed {w : CmdWord} {i : Instr} (h : decode w = .ok i) : WellFormed i := by
  obtain ⟨r, hr, -, rfl⟩ := decode_ok h
  exact Row.build_wellFormed hr w

/-! ### Progress -/

/-- With the cursor in its range SND_WR answers: it takes the drain, stores or overruns (R74, R76). -/
theorem execSndWr_answers {s : State} (data : Byte) (hi : s.idx.toNat ≤ 512) :
    ∃ t, execSndWr data s = .next t := by
  cases hd : s.drained with
  | true =>
    obtain ⟨t, ht, -⟩ := execSndWr_drains data hd hi
    exact ⟨t, ht⟩
  | false =>
    rcases Nat.lt_or_eq_of_le hi with hlt | heq
    · exact ⟨_, execSndWr_stores data hd hlt⟩
    · exact ⟨_, execSndWr_overruns data hd heq⟩

/-- On its two slots KBD_LDS answers (R92). -/
theorem execKbdLds_answers {slot : BitVec 4} (mask : Byte) (s : State) (h : slot = 8#4 ∨ slot = 9#4) :
    ∃ t, execKbdLds slot mask s = .next t := by
  rcases execKbdLds_cases slot mask s with ⟨-, he⟩ | ⟨-, he⟩ | ⟨h₈, h₉, -⟩
  · exact ⟨_, he⟩
  · exact ⟨_, he⟩
  · exact absurd h (not_or.2 ⟨h₈, h₉⟩)

/-- A well-formed operation answers a next state while the cursor is in its range. -/
theorem exec_answers {i : Instr} {s : State} (hw : WellFormed i) (hi : s.idx.toNat ≤ 512) :
    ∃ t, exec i s = .next t := by
  cases i with
  | sndWr data => exact execSndWr_answers data hi
  | sndRd addr => exact ⟨_, execSndRd_eq addr s⟩
  | kbdLds slot mask => exact execKbdLds_answers mask s hw
  | kprobe sel =>
    obtain ⟨k, joy, he, -⟩ := execKprobe_eq sel s
    exact ⟨_, he⟩
  | _ => exact ⟨_, rfl⟩

/-! ### The statements -/

/-- Settles O53, by the oldest input: an operation that decodes is well-formed, and the invariant keeps the cursor in
its range, so neither stop of the model can be reached. -/
theorem stepNeverStops : Obligations.StepNeverStops := by
  intro s hinv
  cases hs : s.inputs with
  | nil => exact ⟨s, step_idle hs⟩
  | cons x rest =>
    cases x with
    | powerOnReset => exact ⟨_, step_powerOnReset hs⟩
    | command w =>
      cases hd : decode w with
      | error e => exact ⟨_, step_command_error hs hd⟩
      | ok i =>
        rw [step_command_ok hs hd]
        exact exec_answers (decode_wellFormed hd) hinv.cursor

/-- Settles O7, by the equation of `step` for a command word that decodes. -/
theorem stepRunsTheDecodedOperation : Obligations.StepRunsTheDecodedOperation :=
  fun _ _ _ _ => step_command_ok

end Sys2Proof.Machine
end

section
/-!
What SND_WR reads and what it leaves (spec/40_audio.md R73 to R76): two states that agree on the store, the cursor, the
flag and the emitted byte take the same SND_WR, whatever their other registers hold.
-/
namespace Sys2Proof.Machine

/-! ### What SND_WR reads -/

/-- The two states agree on all that a SND_WR of `data` reads; MODE, MEL and SPK count through the emitted byte only. -/
structure SameWriteReads (data : Byte) (s s' : State) : Prop where
  buf : s'.buf = s.buf
  idx : s'.idx = s.idx
  drained : s'.drained = s.drained
  draws : s'.draws = s.draws
  emitted : emitted data s' = emitted data s

/-- The registers of `s'` around the store, the cursor, the flag and the draw of `u`. -/
def withStoreOf (s' u : State) : State :=
  { s' with buf := u.buf, idx := u.idx, drained := u.drained, draws := u.draws }

theorem withStoreOf_passesHandshake (s' : State) : PassesHandshake (withStoreOf s') where
  comm _ _ _ _ := rfl
  buf _ := rfl
  drained _ := rfl
  idx _ := rfl
  draws _ := rfl

theorem SameWriteReads.withStoreOf_eq {data : Byte} {s s' : State} (hs : SameWriteReads data s s') :
    withStoreOf s' s = s' := by
  simp only [withStoreOf, ← hs.buf, ← hs.idx, ← hs.drained, ← hs.draws]

/-! ### What SND_WR leaves -/

/-- A SND_WR with a cursor R12 calls unreachable stops: the tail copy at the end of the store, or else the store itself. -/
theorem execSndWr_outside_eq {s : State} (data : Byte) (hi : 512 < s.idx.toNat) :
    execSndWr data s = .fault (.noSuchAddress (if s.drained then 512 else s.idx.toNat)) := by
  cases hd : s.drained with
  | false => simp [execSndWr, handshake_idle hd, storeSample_error _ hi, finish]
  | true => simp [execSndWr, handshake_error hd hi]

theorem cursor_le_of_execSndWr {s t : State} {data : Byte} (h : execSndWr data s = .next t) : s.idx.toNat ≤ 512 := by
  by_contra hi
  rw [execSndWr_outside_eq data (by omega)] at h
  cases h

/-- The SND_WR finds the store full and no drain to take (R76). -/
abbrev Overruns (s : State) : Prop := s.drained = false ∧ s.idx.toNat = 512

/-- The state a SND_WR of `data` leaves when its store and cursor become `b` and `c` (R76). -/
def afterSndWr (data : Byte) (s : State) (b : Memory) (c : Cursor) : State :=
  { s with
    buf := b, idx := c, drained := false
    spk := if Overruns s then s.spk else emitted data s
    fault := if Overruns s then s.fault ||| BlockFault.audioOverrun.bit else s.fault
    response := none }

theorem afterSndWr_overruns {s : State} (data : Byte) (ho : Overruns s) :
    afterSndWr data s s.buf s.idx = raise .audioOverrun s := by
  simp only [afterSndWr, if_pos ho, raise, respond, ← ho.1]

theorem afterSndWr_stores {s : State} (data : Byte) (b : Memory) (c : Cursor) (ho : ¬ Overruns s) :
    afterSndWr data s b c =
      { s with buf := b, idx := c, drained := false, spk := emitted data s, response := none } := by
  simp only [afterSndWr, if_neg ho]

theorem SameWriteReads.refl (data : Byte) (s : State) : SameWriteReads data s s := ⟨rfl, rfl, rfl, rfl, rfl⟩

theorem SameWriteReads.overruns_iff {data : Byte} {s s' : State} (hs : SameWriteReads data s s') :
    Overruns s' ↔ Overruns s := by
  rw [Overruns, Overruns, hs.drained, hs.idx]

/-- The handshake of a state reads and writes the store, the cursor, the flag and the draw only. -/
theorem SameWriteReads.handshake_eq {data : Byte} {s s' u : State} (hs : SameWriteReads data s s')
    (hu : handshake s = .ok u) : handshake s' = .ok (withStoreOf s' u) := by
  have h := handshake_comm (withStoreOf_passesHandshake s') s
  rwa [hs.withStoreOf_eq, hu] at h

/-- A SND_WR that finds room stores after its handshake, which changes the store and the cursor and leaves the flag 0. -/
theorem handshake_finds_room {s : State} (hi : s.idx.toNat ≤ 512) (ho : ¬ Overruns s) :
    ∃ u, handshake s = .ok u ∧ u = { s with buf := u.buf, idx := u.idx, drained := false } ∧ u.idx.toNat < 512 := by
  cases hd : s.drained with
  | false =>
    have hne : s.idx.toNat ≠ 512 := fun h => ho ⟨hd, h⟩
    exact ⟨s, handshake_idle hd, by rw [← hd], by omega⟩
  | true =>
    obtain ⟨u, hu, hframe, -⟩ := handshake_taken hd hi
    have hidx : u.idx.toNat = s.idx.toNat - 256 := by rw [hframe]; exact shiftCursor_toNat _
    exact ⟨u, hu, by rw [hframe], by omega⟩

theorem execSndWr_of_handshake {s u : State} (data : Byte) (hu : handshake s = .ok u) (hlt : u.idx.toNat < 512) :
    execSndWr data s = .next { u with
      buf := Memory.write u.buf u.idx.toNat (emitted data u), idx := u.idx + 1#10, spk := emitted data u,
      response := none } := by
  simp [execSndWr, hu, storeSample_stores _ hlt, finish]

/-- A SND_WR that answers leaves everything but store and cursor in closed form, and from any state that agrees on what
it reads it leaves the same store and cursor. -/
theorem execSndWr_after {s t : State} {data : Byte} (h : execSndWr data s = .next t) :
    ∃ b c, t = afterSndWr data s b c ∧
      ∀ s', SameWriteReads data s s' → execSndWr data s' = .next (afterSndWr data s' b c) := by
  suffices hall : ∃ b c, ∀ s', SameWriteReads data s s' → execSndWr data s' = .next (afterSndWr data s' b c) by
    obtain ⟨b, c, hbc⟩ := hall
    have ht := h.symm.trans (hbc s (.refl data s))
    injection ht with ht
    exact ⟨b, c, ht, hbc⟩
  by_cases ho : Overruns s
  · refine ⟨s.buf, s.idx, fun s' hs => ?_⟩
    have ho' := hs.overruns_iff.2 ho
    rw [execSndWr_overruns data ho'.1 ho'.2, ← afterSndWr_overruns data ho', hs.buf, hs.idx]
  · obtain ⟨u, hu, hframe, hlt⟩ := handshake_finds_room (cursor_le_of_execSndWr h) ho
    refine ⟨Memory.write u.buf u.idx.toNat (emitted data s), u.idx + 1#10, fun s' hs => ?_⟩
    have ho' : ¬ Overruns s' := fun h => ho (hs.overruns_iff.1 h)
    have he : emitted data (withStoreOf s' u) = emitted data s' := rfl
    have hdrained : u.drained = false := by rw [hframe]
    have hdraws : u.draws = s'.draws := by rw [hframe, hs.draws]
    rw [execSndWr_of_handshake data (hs.handshake_eq hu) hlt, afterSndWr_stores data _ _ ho', he, hs.emitted]
    simp only [withStoreOf, hdrained, hdraws]

/-! ### The audio half after SND_WR, register by register -/

/-- The address a SND_WR that finds room stores at: the cursor after its handshake (R74, R76). -/
def writeAddr (s : State) : Nat := if s.drained = true then s.idx.toNat - 256 else s.idx.toNat

theorem execSndWr_idx {s t : State} {data : Byte} (h : execSndWr data s = .next t) :
    t.idx.toNat = if Overruns s then 512 else writeAddr s + 1 := by
  rcases execSndWr_cases h with ⟨hd, hi, rfl⟩ | ⟨hd, hi, rfl⟩ | ⟨hd, hi, -, hidx, -⟩
  · simp [hd, hi]
  · simp [hd, Nat.ne_of_lt hi, writeAddr, cursor_succ hi]
  · simp [hd, writeAddr, hidx]

theorem execSndWr_idx_le {s t : State} {data : Byte} (h : execSndWr data s = .next t) : t.idx.toNat ≤ 512 := by
  rcases execSndWr_cases h with ⟨-, hi, rfl⟩ | ⟨-, hi, rfl⟩ | ⟨-, hi, -, hidx, -⟩
  · exact hi.le
  · rw [cursor_succ hi]; omega
  · omega

theorem execSndWr_bytes {s t : State} {data : Byte} (h : execSndWr data s = .next t) (a : Nat) :
    bufByte t a =
      if Overruns s then bufByte s a
      else if s.drained = true ∧ a < writeAddr s then bufByte s (256 + a)
      else if a = writeAddr s then emitted data s
      else bufByte s a := by
  rcases execSndWr_cases h with ⟨hd, hi, rfl⟩ | ⟨hd, hi, rfl⟩ | ⟨hd, -, -, -, hbyte, -⟩
  · rw [if_pos ⟨hd, hi⟩]
    exact bufByte_congr rfl rfl a
  · have haddr : writeAddr s = s.idx.toNat := by simp [writeAddr, hd]
    rw [if_neg (fun ho => Nat.ne_of_lt hi ho.2), if_neg (by simp [hd]), haddr]
    by_cases ha : a = s.idx.toNat
    · rw [if_pos ha, ha]
      exact bufByte_eq_written rfl
    · rw [if_neg ha]
      exact bufByte_eq_other rfl rfl ha
  · simp [hbyte a, hd, writeAddr]

theorem execSndWr_keeps_wf {s t : State} {data : Byte} (h : execSndWr data s = .next t) (hm : Memory.wf s.buf) :
    Memory.wf t.buf := by
  rcases execSndWr_cases h with ⟨-, -, rfl⟩ | ⟨-, hi, rfl⟩ | ⟨-, -, -, -, -, hwf, -⟩
  · exact hm
  · exact Memory.wf_write _ hm (by simpa using hi)
  · exact hwf hm

end Sys2Proof.Machine
end

section
/-!
What the matrix probe reads (spec/41_keyboard.md R94 to R100), and equations of `exec` for the operations whose meaning
is not one record update.
-/
namespace Sys2Proof.Machine

/-- The key lines a KPROBE answers and the latch it leaves (R99, R100). -/
def probeResult (sel : Byte) (s : State) : KeyLines × Byte :=
  if pressed s = 0#8 then (0#4, s.joy) else matrixScan s sel (pressed s)

theorem exec_kprobe (sel : Byte) (s : State) :
    exec (.kprobe sel) s =
      .next (respond (some (.keyLines (probeResult sel s).1)) { s with joy := (probeResult sel s).2 }) := by
  by_cases hp : pressed s = 0#8
  · simp [exec, execKprobe, probeResult, hp]
  · simp [exec, execKprobe, probeResult, hp]

/-- A probe reads the buttons R94 counts, the latch and the scan-line entries, and nothing else. -/
theorem probeResult_congr {s s' : State} (sel : Byte) (hp : pressed s' = pressed s) (hj : s'.joy = s.joy)
    (hl : s'.lines = s.lines) : probeResult sel s' = probeResult sel s := by
  have hline : lineAt s' = lineAt s := by funext x; simp only [lineAt, hl]
  have hscan : scanLine s' = scanLine s := by funext sel p acc x; simp only [scanLine, hline]
  simp only [probeResult, matrixScan, hp, hj, hline, hscan]

theorem exec_sndRd (addr : BitVec 9) (s : State) :
    exec (.sndRd addr) s = .next (respond (some (.sample (bufByte s addr.toNat))) s) := execSndRd_eq addr s

/-- KBD_LDS on a slot it does not have (R92, R54). -/
theorem exec_kbdLds_otherSlot {slot : BitVec 4} (mask : Byte) (s : State) (h₈ : slot ≠ 8#4) (h₉ : slot ≠ 9#4) :
    exec (.kbdLds slot mask) s = .fault (.noSuchSlot slot.toNat) := by
  simp [exec, execKbdLds, setKey, h₈, h₉]

/-- KBD_LDS changes the two keys at most (R92). -/
theorem exec_kbdLds_frame {slot : BitVec 4} {mask : Byte} {s t : State} (h : exec (.kbdLds slot mask) s = .next t) :
    ∃ k₈ k₉, t = respond none { s with key8 := k₈, key9 := k₉ } := by
  rcases exec_next h with ⟨-, rfl⟩ | ⟨-, rfl⟩
  · exact ⟨mask, s.key9, rfl⟩
  · exact ⟨s.key8, mask, rfl⟩

/-- The byte nothing has written since the draw is the draw's free value (R24). -/
theorem bufByte_of_empty {s : State} (h : s.buf = []) (a : Nat) : bufByte s a = Config.freeSample s.draws a := by
  simp only [bufByte, h, Memory.read_nil]

theorem exec_sndInit_bytes {s t : State} (h : exec .sndInit s = .next t) (a : Nat) :
    bufByte t a = Config.freeSample (s.draws + 1) a := by
  obtain rfl : t = _ := exec_next h
  exact bufByte_of_empty rfl a

end Sys2Proof.Machine
end

section
/-!
The two halves share nothing (spec/10_state.md R10).
-/
namespace Sys2Proof.Machine

theorem pressed_congr {s s' : State} (h : s'.btn = s.btn) : pressed s' = pressed s := by simp only [pressed, h]

theorem lineAt_congr {s s' : State} (h : s'.lines = s.lines) (x : BitVec 3) : lineAt s' x = lineAt s x := by
  simp only [lineAt, h]

theorem SameKeyboard.probeResult_eq {s s' : State} (hs : SameKeyboard s s') (sel : Byte) :
    probeResult sel s' = probeResult sel s :=
  probeResult_congr sel (pressed_congr hs.btn) hs.joy hs.lines

/-- The keyboard half after an operation depends on the keyboard half before it alone. -/
theorem exec_sameKeyboard {i : Instr} {s s' t t' : State} (h : exec i s = .next t) (h' : exec i s' = .next t')
    (hs : SameKeyboard s s') : SameKeyboard t t' := by
  obtain ⟨hbtn, hjoy, hlines, h₈, h₉⟩ := hs
  cases i with
  | sndWr data =>
    obtain ⟨b, c, rfl, -⟩ := execSndWr_after (exec_next h)
    obtain ⟨b', c', rfl, -⟩ := execSndWr_after (exec_next h')
    exact ⟨hbtn, hjoy, hlines, h₈, h₉⟩
  | kbdLdm slot sub mask =>
    obtain ⟨rfl, rfl⟩ : t = _ ∧ t' = _ := ⟨exec_next h, exec_next h'⟩
    exact ⟨hbtn, hjoy, by simp [lineAt_congr hlines, hlines], h₈, h₉⟩
  | kbdLdf slot mk =>
    obtain ⟨rfl, rfl⟩ : t = _ ∧ t' = _ := ⟨exec_next h, exec_next h'⟩
    exact ⟨hbtn, hjoy, by simp [lineAt_congr hlines, hlines], h₈, h₉⟩
  | kbdLds slot mask =>
    rcases exec_next h with ⟨rfl, rfl⟩ | ⟨rfl, rfl⟩
    · obtain ⟨-, rfl⟩ := (exec_next h').resolve_right (by simp)
      exact ⟨hbtn, hjoy, hlines, rfl, h₉⟩
    · obtain ⟨-, rfl⟩ := (exec_next h').resolve_left (by simp)
      exact ⟨hbtn, hjoy, hlines, h₈, rfl⟩
  | btnSet btn =>
    obtain ⟨rfl, rfl⟩ : t = _ ∧ t' = _ := ⟨exec_next h, exec_next h'⟩
    exact ⟨rfl, hjoy, hlines, h₈, h₉⟩
  | kprobe sel =>
    rw [exec_kprobe] at h h'
    cases h; cases h'
    exact ⟨hbtn, congrArg Prod.snd (SameKeyboard.probeResult_eq ⟨hbtn, hjoy, hlines, h₈, h₉⟩ sel), hlines, h₈, h₉⟩
  | _ =>
    obtain ⟨rfl, rfl⟩ : t = _ ∧ t' = _ := ⟨exec_next h, exec_next h'⟩
    exact ⟨hbtn, hjoy, hlines, h₈, h₉⟩

theorem SameAudio.overruns_iff {s s' : State} (hs : SameAudio s s') : Overruns s' ↔ Overruns s := by
  rw [Overruns, Overruns, hs.drained, hs.idx]

theorem SameAudio.emitted_eq {s s' : State} (hs : SameAudio s s') (data : Byte) : emitted data s' = emitted data s := by
  simp only [emitted, hs.mel, hs.mode, hs.spk]

theorem SameAudio.writeAddr_eq {s s' : State} (hs : SameAudio s s') : writeAddr s' = writeAddr s := by
  simp only [writeAddr, hs.drained, hs.idx]

/-- The audio half after a SND_WR depends on the audio half before it alone. -/
theorem execSndWr_sameAudio {s s' t t' : State} {data : Byte} (h : execSndWr data s = .next t)
    (h' : execSndWr data s' = .next t') (hs : SameAudio s s') : SameAudio t t' := by
  have hidx : t'.idx = t.idx := by
    apply BitVec.eq_of_toNat_eq
    simp only [execSndWr_idx h, execSndWr_idx h', hs.overruns_iff, hs.writeAddr_eq]
  have hbuf : ∀ a, bufByte t' a = bufByte t a := fun a => by
    simp only [execSndWr_bytes h, execSndWr_bytes h', hs.overruns_iff, hs.writeAddr_eq, hs.emitted_eq, hs.drained, hs.buf]
  obtain ⟨b, c, rfl, -⟩ := execSndWr_after h
  obtain ⟨b', c', rfl, -⟩ := execSndWr_after h'
  refine ⟨hbuf, hidx, rfl, ?_, hs.mode, hs.mel⟩
  simp only [afterSndWr, hs.overruns_iff, hs.spk, hs.emitted_eq]

/-- The audio half after an operation depends on the audio half before it alone; the count of draws stands for the
unspecified contents a SND_INIT leaves (R24). -/
theorem exec_sameAudio {i : Instr} {s s' t t' : State} (h : exec i s = .next t) (h' : exec i s' = .next t')
    (hs : SameAudio s s') (hdraws : s'.draws = s.draws) : SameAudio t t' := by
  cases i with
  | sndInit =>
    have hbuf : ∀ a, bufByte t' a = bufByte t a := fun a => by
      rw [exec_sndInit_bytes h, exec_sndInit_bytes h', hdraws]
    obtain ⟨rfl, rfl⟩ : t = _ ∧ t' = _ := ⟨exec_next h, exec_next h'⟩
    exact ⟨hbuf, rfl, rfl, hs.spk, hs.mode, hs.mel⟩
  | sndCfg mode mel =>
    obtain ⟨rfl, rfl⟩ : t = _ ∧ t' = _ := ⟨exec_next h, exec_next h'⟩
    exact ⟨hs.buf, hs.idx, hs.drained, hs.spk, rfl, rfl⟩
  | sndWr data => exact execSndWr_sameAudio (exec_next h) (exec_next h') hs
  | sndAck =>
    obtain ⟨rfl, rfl⟩ : t = _ ∧ t' = _ := ⟨exec_next h, exec_next h'⟩
    exact ⟨hs.buf, hs.idx, rfl, hs.spk, hs.mode, hs.mel⟩
  | spkLd data =>
    obtain ⟨rfl, rfl⟩ : t = _ ∧ t' = _ := ⟨exec_next h, exec_next h'⟩
    exact ⟨hs.buf, hs.idx, hs.drained, rfl, hs.mode, hs.mel⟩
  | kbdLds slot mask =>
    obtain ⟨k₈, k₉, rfl⟩ := exec_kbdLds_frame h
    obtain ⟨k₈', k₉', rfl⟩ := exec_kbdLds_frame h'
    exact ⟨hs.buf, hs.idx, hs.drained, hs.spk, hs.mode, hs.mel⟩
  | kprobe sel =>
    obtain ⟨k, joy, rfl, -⟩ := exec_next h
    obtain ⟨k', joy', rfl, -⟩ := exec_next h'
    exact ⟨hs.buf, hs.idx, hs.drained, hs.spk, hs.mode, hs.mel⟩
  | _ =>
    obtain ⟨rfl, rfl⟩ : t = _ ∧ t' = _ := ⟨exec_next h, exec_next h'⟩
    exact ⟨hs.buf, hs.idx, hs.drained, hs.spk, hs.mode, hs.mel⟩

/-- What a probe answers depends on the keyboard half alone. -/
theorem exec_probe_sameResponse {i : Instr} {s s' t t' : State} (h : exec i s = .next t) (h' : exec i s' = .next t')
    (hs : SameKeyboard s s') (hi : (∃ sel, i = .kprobe sel) ∨ i = .kprobeA ∨ i = .kprobeB) :
    t'.response = t.response := by
  rcases hi with ⟨sel, rfl⟩ | rfl | rfl
  · rw [exec_kprobe] at h h'
    cases h; cases h'
    simp only [respond_response, hs.probeResult_eq]
  · obtain ⟨rfl, rfl⟩ : t = _ ∧ t' = _ := ⟨exec_next h, exec_next h'⟩
    simp only [respond_response, hs.key9, pressed_congr hs.btn]
  · obtain ⟨rfl, rfl⟩ : t = _ ∧ t' = _ := ⟨exec_next h, exec_next h'⟩
    simp only [respond_response, hs.key8, pressed_congr hs.btn]

/-- What a SND_RD answers depends on the audio half alone. -/
theorem exec_sndRd_sameResponse {addr : BitVec 9} {s s' t t' : State} (h : exec (.sndRd addr) s = .next t)
    (h' : exec (.sndRd addr) s' = .next t') (hs : SameAudio s s') : t'.response = t.response := by
  obtain rfl : t = _ := exec_next h
  obtain rfl : t' = _ := exec_next h'
  simp only [respond_response, hs.buf]

/-- Settles O45: each half after an operation, and each response, is a function of that half before it. -/
theorem halvesDoNotInfluenceEachOther : Obligations.HalvesDoNotInfluenceEachOther := by
  intro i s s' t t' h h'
  refine ⟨fun hs => ⟨exec_sameKeyboard h h' hs, fun hi => exec_probe_sameResponse h h' hs ?_⟩,
    fun hs hdraws => ⟨exec_sameAudio h h' hs hdraws, fun hi => ?_⟩⟩
  · cases i with
    | kprobe sel => exact .inl ⟨sel, rfl⟩
    | kprobeA => exact .inr (.inl rfl)
    | kprobeB => exact .inr (.inr rfl)
    | _ => exact hi.elim
  · cases i with
    | sndRd addr => exact exec_sndRd_sameResponse h h' hs
    | _ => exact hi.elim

end Sys2Proof.Machine
end

section
/-!
Power-on reset and SND_INIT (spec/10_state.md R24), the invariant of the block (R12, R83 (a), R104), and the fault
record (R20).
-/
namespace Sys2Proof.Machine

/-! ### The values after a reset -/

/-- A table as reset leaves it has no flag and no mask set (R19, R24). -/
theorem lineAt_of_absent {s : State} (h : s.lines = Vector.replicate 8 Line.absent) (x : BitVec 3) :
    lineAt s x = Line.absent := by
  simp only [lineAt, h, Vector.getElem_replicate]

theorem subMask_absent (j : BitVec 2) : subMask Line.absent j = 0#8 := by
  simp only [subMask, Line.absent, Vector.getElem_replicate]

theorem table_of_absent {s : State} (h : s.lines = Vector.replicate 8 Line.absent) (x : BitVec 3) :
    (lineAt s x).multikey = false ∧ ∀ j : BitVec 2, subMask (lineAt s x) j = 0#8 := by
  rw [lineAt_of_absent h]
  exact ⟨rfl, subMask_absent⟩

/-- Settles O9, by what `powerOn` leaves in each register. -/
theorem powerOnResetLeavesTheStatedValues : Obligations.PowerOnResetLeavesTheStatedValues := by
  intro s rest hs
  exact ⟨_, step_powerOnReset hs, rfl, rfl, rfl, rfl, rfl, rfl, table_of_absent rfl, rfl, rfl, rfl,
    bufByte_of_empty rfl, rfl, rfl, rfl⟩

/-- Settles O10, register by register. -/
theorem resetStateHasTheStatedValues : Obligations.ResetStateHasTheStatedValues :=
  ⟨rfl, rfl, rfl, rfl, rfl, rfl, rfl, rfl, rfl, table_of_absent rfl⟩

/-- Settles O12: SND_INIT empties the store, so every byte reads as the free value of the new draw. -/
theorem sndInitDrawsTheStoreAfresh : Obligations.SndInitDrawsTheStoreAfresh :=
  fun _ => ⟨_, rfl, rfl, exec_sndInit_bytes rfl⟩

/-- Settles O20, by the address at which the tail copy or the store leaves BUF. -/
theorem sndWrStopsOutsideTheStore : Obligations.SndWrStopsOutsideTheStore := by
  intro data s hi
  refine ⟨_, ?_, execSndWr_outside_eq data hi⟩
  split <;> omega

/-! ### The invariant -/

theorem Inv.of_audioReset {s : State} (hb : s.buf = []) (hi : s.idx = 0#10) (hj : JoyLegal s.joy) : Inv s where
  mem := hb ▸ Memory.wf_nil
  cursor := by simp [hi]
  latch := hj

/-- Settles O51: the store is empty, the cursor 0 and the latch 0. -/
theorem resetMeetsTheInvariant : Obligations.ResetMeetsTheInvariant :=
  ⟨.of_audioReset rfl rfl (by decide), fun a ha => absurd ha (Nat.not_lt_zero a)⟩

/-- The invariant reads the store, the cursor and the latch only. -/
theorem Inv.of_same {s t : State} (hs : Inv s) (hb : t.buf = s.buf) (hi : t.idx = s.idx) (hj : t.joy = s.joy) :
    Inv t where
  mem := hb ▸ hs.mem
  cursor := hi ▸ hs.cursor
  latch := hj ▸ hs.latch

/-- Resolving a direction clears its opposite, so the latch stays legal (R96, R104). -/
theorem resolve_joyLegal {joy : Byte} (d : Direction) (h : JoyLegal joy) : JoyLegal (resolve joy d) := by
  revert joy
  cases d <;> decide

theorem execSndWr_keeps_inv {s t : State} {data : Byte} (h : execSndWr data s = .next t) (hs : Inv s) : Inv t := by
  have hmem := execSndWr_keeps_wf h hs.mem
  have hcursor := execSndWr_idx_le h
  obtain ⟨b, c, rfl, -⟩ := execSndWr_after h
  exact ⟨hmem, hcursor, hs.latch⟩

theorem exec_keeps_inv {i : Instr} {s t : State} (h : exec i s = .next t) (hs : Inv s) : Inv t := by
  cases i with
  | sndInit => obtain rfl : t = _ := exec_next h; exact .of_audioReset rfl rfl hs.latch
  | sndWr data => exact execSndWr_keeps_inv (exec_next h) hs
  | kbdLds slot mask =>
    obtain ⟨k₈, k₉, rfl⟩ := exec_kbdLds_frame h
    exact hs.of_same rfl rfl rfl
  | kprobe sel =>
    obtain ⟨k, joy, rfl, rfl | ⟨d, -, rfl⟩⟩ := exec_next h
    · exact hs.of_same rfl rfl rfl
    · exact ⟨hs.mem, hs.cursor, resolve_joyLegal d hs.latch⟩
  | _ => obtain rfl : t = _ := exec_next h; exact hs.of_same rfl rfl rfl

/-- Settles O52, by what a step can do: idle, reset, run an operation, or record an illegal word. -/
theorem stepKeepsTheInvariant : Obligations.StepKeepsTheInvariant := by
  intro s t hs h
  rcases step_next h with ⟨-, rfl⟩ | ⟨rest, -, rfl⟩ | ⟨w, rest, i, -, -, hx⟩ | ⟨w, rest, e, -, -, rfl⟩
  · exact hs
  · exact .of_audioReset rfl rfl (by decide : JoyLegal 0#8)
  · exact exec_keeps_inv hx (hs.of_same rfl rfl rfl)
  · exact hs.of_same rfl rfl rfl

/-! ### Frames of an operation -/

/-- Settles O44: every operation but SND_WR is an update of its own registers, and for SND_WR see `execSndWr_after`. -/
theorem registersChangeOnlyByTheirOperations : Obligations.RegistersChangeOnlyByTheirOperations := by
  intro i s t h
  cases i with
  | sndWr data =>
    obtain ⟨b, c, rfl, -⟩ := execSndWr_after (exec_next h)
    simp [afterSndWr]
  | kbdLds slot mask =>
    obtain ⟨k₈, k₉, rfl⟩ := exec_kbdLds_frame h
    simp [bufByte]
  | kprobe sel =>
    obtain ⟨k, joy, rfl, -⟩ := exec_next h
    simp [bufByte]
  | _ => obtain rfl : t = _ := exec_next h; simp [bufByte]

/-- Settles O24: SND_WR clears the flag even where it overruns, and only SND_ACK and SND_INIT write it besides. -/
theorem drainedFollowsTheLastAudioEvent : Obligations.DrainedFollowsTheLastAudioEvent := by
  intro i s t h
  cases i with
  | sndWr data =>
    obtain ⟨b, c, rfl, -⟩ := execSndWr_after (exec_next h)
    rfl
  | kbdLds slot mask =>
    obtain ⟨k₈, k₉, rfl⟩ := exec_kbdLds_frame h
    rfl
  | kprobe sel =>
    obtain ⟨k, joy, rfl, -⟩ := exec_next h
    rfl
  | _ => obtain rfl : t = _ := exec_next h; rfl

/-! ### The fault record -/

/-- An operation leaves FAULT or records an overrun in it. -/
theorem exec_fault {i : Instr} {s t : State} (h : exec i s = .next t) :
    t.fault = s.fault ∨ t.fault = s.fault ||| BlockFault.audioOverrun.bit := by
  cases i with
  | sndWr data =>
    obtain ⟨b, c, rfl, -⟩ := execSndWr_after (exec_next h)
    exact (ite_eq_or_eq (Overruns s) _ _).symm
  | _ =>
    obtain ⟨-, -, -, -, -, -, -, -, hfault, -⟩ := registersChangeOnlyByTheirOperations _ s t h
    exact .inl (hfault trivial)

theorem fault_and_or_self (f g : BitVec 2) : f &&& (f ||| g) = f := by
  revert f g; decide

/-- Settles O49: an operation or an illegal word adds a bit to the record or leaves it. -/
theorem faultRecordIsSticky : Obligations.FaultRecordIsSticky := by
  intro s t h hreset
  rcases step_next h with ⟨-, rfl⟩ | ⟨rest, hs, -⟩ | ⟨w, rest, i, -, -, hx⟩ | ⟨w, rest, e, -, -, rfl⟩
  · exact BitVec.and_self
  · exact absurd hs (hreset rest)
  · rcases exec_fault hx with hf | hf
    · rw [hf]; exact BitVec.and_self
    · rw [hf]; exact fault_and_or_self _ _
  · exact fault_and_or_self _ _

end Sys2Proof.Machine
end

section
/-!
Registers no operation reads (spec/10_state.md R17, R20, R23) and what the melody flag hides (R16).
-/
namespace Sys2Proof.Machine

/-- In melody mode the emitted byte is the data byte (R75). -/
theorem emitted_of_mel {s : State} (data : Byte) (h : s.mel = true) : emitted data s = data := by
  simp only [emitted, route, h, if_true]

/-- Settles O22: in melody mode the emitted byte depends on neither MODE nor SPK, so a SND_WR reads the same. -/
theorem melodyIgnoresModeAndLatch : Obligations.MelodyIgnoresModeAndLatch := by
  intro data p m s t hmel h
  obtain ⟨b, c, rfl, hsame⟩ := execSndWr_after h
  have he : emitted data { s with mode := m, spk := p } = emitted data s := by
    rw [emitted_of_mel data hmel, emitted_of_mel data (by exact hmel)]
  refine (hsame { s with mode := m, spk := p } ⟨rfl, rfl, rfl, rfl, he⟩).trans ?_
  by_cases ho : Overruns s
  · simp only [afterSndWr, if_pos ho]
  · simp only [afterSndWr, if_neg ho, he]

/-- Settles O43: SND_WR reads no button, a probe reads the eight bits of R94 only, and BTN_SET replaces them. -/
theorem pauseAndPowerAreNeverRead : Obligations.PauseAndPowerAreNeverRead := by
  intro i b s t hb h
  have hp : pressed { s with btn := b } = pressed s := hb
  cases i with
  | sndWr data =>
    obtain ⟨buf, idx, rfl, hsame⟩ := execSndWr_after (exec_next h)
    exact ⟨b, hsame _ ⟨rfl, rfl, rfl, rfl, rfl⟩, hb⟩
  | sndRd addr => obtain rfl : t = _ := exec_next h; exact ⟨b, exec_sndRd addr _, hb⟩
  | kbdLds slot mask =>
    rcases exec_next h with ⟨rfl, rfl⟩ | ⟨rfl, rfl⟩
    · exact ⟨b, rfl, hb⟩
    · exact ⟨b, rfl, hb⟩
  | btnSet btn => obtain rfl : t = _ := exec_next h; exact ⟨btn, rfl, rfl⟩
  | kprobe sel =>
    rw [exec_kprobe] at h
    cases h
    refine ⟨b, ?_, hb⟩
    rw [exec_kprobe, probeResult_congr (s := s) sel hp rfl rfl]
    rfl
  | kprobeA => obtain rfl : t = _ := exec_next h; exact ⟨b, by simp only [exec, execKprobeA, hp]; rfl, hb⟩
  | kprobeB => obtain rfl : t = _ := exec_next h; exact ⟨b, by simp only [exec, execKprobeB, hp]; rfl, hb⟩
  | _ => obtain rfl : t = _ := exec_next h; exact ⟨b, rfl, hb⟩

/-- Settles O48: no operation reads FAULT; only an overrun writes it, on top of what it holds. -/
theorem faultRecordIsReadByNothing : Obligations.FaultRecordIsReadByNothing := by
  intro i f s t h
  cases i with
  | sndWr data =>
    obtain ⟨buf, idx, rfl, hsame⟩ := execSndWr_after (exec_next h)
    exact ⟨_, hsame _ ⟨rfl, rfl, rfl, rfl, rfl⟩⟩
  | sndRd addr => obtain rfl : t = _ := exec_next h; exact ⟨f, exec_sndRd addr _⟩
  | kbdLds slot mask =>
    rcases exec_next h with ⟨rfl, rfl⟩ | ⟨rfl, rfl⟩
    · exact ⟨f, rfl⟩
    · exact ⟨f, rfl⟩
  | kprobe sel =>
    rw [exec_kprobe] at h
    cases h
    exact ⟨f, exec_kprobe sel _⟩
  | _ => obtain rfl : t = _ := exec_next h; exact ⟨f, rfl⟩

/-- SND_WR answers the same from any response, also where it stops. -/
theorem execSndWr_ignores_response (data : Byte) (r : Option Response) (s : State) :
    execSndWr data { s with response := r } = execSndWr data s := by
  rcases Nat.lt_or_ge 512 s.idx.toNat with hi | hi
  · rw [execSndWr_outside_eq data hi]
    exact execSndWr_outside_eq data hi
  · obtain ⟨t, ht⟩ := execSndWr_answers data hi
    obtain ⟨b, c, rfl, hsame⟩ := execSndWr_after ht
    rw [ht]
    exact hsame _ ⟨rfl, rfl, rfl, rfl, rfl⟩

/-- Settles O47: every operation that answers overwrites the response, and none reads it. -/
theorem responseIsReadByNothing : Obligations.ResponseIsReadByNothing := by
  intro i r s
  cases i with
  | sndWr data => exact execSndWr_ignores_response data r s
  | sndRd addr => rw [exec_sndRd, exec_sndRd]; rfl
  | kbdLds slot mask =>
    rcases execKbdLds_cases slot mask s with ⟨rfl, -⟩ | ⟨rfl, -⟩ | ⟨h₈, h₉, -⟩
    · rfl
    · rfl
    · rw [exec_kbdLds_otherSlot _ _ h₈ h₉, exec_kbdLds_otherSlot _ _ h₈ h₉]
  | kprobe sel => rw [exec_kprobe, exec_kprobe]; rfl
  | _ => rfl

end Sys2Proof.Machine
end

section
/-!
The sample store as memory (spec/20_memory.md): every byte below the cursor has been written (R36, R84), a stored byte
is read back (R36), the pseudo-operation DRAIN only sets the flag (R40, R62), and a command word's bytes stand most
significant first (R33).
-/
namespace Sys2Proof.Machine

/-! ### Written bytes below the cursor -/

/-- With the cursor at 0 no byte lies below it. -/
theorem Filled.of_idx_zero {s : State} (h : s.idx = 0#10) : Filled s := by
  intro a ha
  simp [h] at ha

/-- `Filled` reads the store and the cursor only. -/
theorem Filled.of_same {s t : State} (hs : Filled s) (hb : t.buf = s.buf) (hi : t.idx = s.idx) : Filled t := by
  intro a ha
  rw [hb]
  exact hs a (hi ▸ ha)

/-- A write keeps every written byte, and its own address is written after it. -/
theorem Memory.read_write_isSome {m : Memory} {a b : Nat} (v : Byte) (h : b = a ∨ (Memory.read m b).isSome) :
    (Memory.read (Memory.write m a v) b).isSome := by
  by_cases hb : b = a
  · rw [hb, Memory.read_write_same]; rfl
  · rw [Memory.read_write_other m v hb]; exact h.resolve_left hb

/-- The bytes below the cursor after a SND_WR are those it found there, those its tail copy moved, and the one it
stored. -/
theorem execSndWr_keeps_filled {s t : State} {data : Byte} (h : execSndWr data s = .next t) (hs : Filled s) :
    Filled t := by
  rcases execSndWr_cases h with ⟨-, -, rfl⟩ | ⟨-, hi, rfl⟩ | ⟨-, -, -, hidx, -, -, hlisted⟩
  · exact hs.of_same rfl rfl
  · intro a ha
    rw [cursor_succ hi] at ha
    exact Memory.read_write_isSome _ ((Nat.lt_succ_iff_lt_or_eq.1 ha).symm.imp_right (hs a))
  · intro a ha
    exact hlisted a (.inr (by omega))

theorem exec_keeps_filled {i : Instr} {s t : State} (h : exec i s = .next t) (hs : Filled s) : Filled t := by
  cases i with
  | sndInit => obtain rfl : t = _ := exec_next h; exact .of_idx_zero rfl
  | sndWr data => exact execSndWr_keeps_filled (exec_next h) hs
  | kbdLds slot mask =>
    obtain ⟨k₈, k₉, rfl⟩ := exec_kbdLds_frame h
    exact hs.of_same rfl rfl
  | kprobe sel =>
    obtain ⟨k, joy, rfl, -⟩ := exec_next h
    exact hs.of_same rfl rfl
  | _ => obtain rfl : t = _ := exec_next h; exact hs.of_same rfl rfl

/-- Settles O54, by what a step can do: idle, reset to an empty store, run an operation, or record an illegal word. -/
theorem stepKeepsTheStoreFilled : Obligations.StepKeepsTheStoreFilled := by
  intro s t hs h
  rcases step_next h with ⟨-, rfl⟩ | ⟨rest, -, rfl⟩ | ⟨w, rest, i, -, -, hx⟩ | ⟨w, rest, e, -, -, rfl⟩
  · exact hs
  · exact .of_idx_zero rfl
  · exact exec_keeps_filled hx (hs.of_same rfl rfl)
  · exact hs.of_same rfl rfl

/-! ### A stored byte is read back -/

/-- Settles O21: a cursor equal to a 9-bit address is inside the store, so the SND_WR stores there. -/
theorem sndRdAnswersTheLastStoredByte : Obligations.SndRdAnswersTheLastStoredByte := by
  intro data addr s t hd hi h
  have hlt : s.idx.toNat < 512 := hi ▸ addr.isLt
  have hbyte : bufByte t addr.toNat = emitted data s := by
    obtain rfl := Host.Outcome.next.inj ((execSndWr_stores data hd hlt).symm.trans h)
    exact bufByte_eq_written (s := s) (by rw [hi])
  rw [exec_sndRd, hbyte]
  rfl

/-! ### DRAIN -/

theorem runOps_cons_of_next {i : Instr} {s t : State} (ops : List Instr) (h : exec i s = .next t) :
    runOps (i :: ops) s = runOps ops t := by
  simp only [runOps, h, nextOf]

/-- Reads in front of a run change at most the response it starts from (R78). -/
theorem runOps_sndRds (addrs : List (BitVec 9)) (ops : List Instr) (s : State) :
    ∃ r, runOps (addrs.map .sndRd ++ ops) s = runOps ops { s with response := r } := by
  induction addrs generalizing s with
  | nil => exact ⟨s.response, rfl⟩
  | cons addr addrs ih =>
    obtain ⟨r, hr⟩ := ih (respond (some (.sample (bufByte s addr.toNat))) s)
    exact ⟨r, (runOps_cons_of_next _ (exec_sndRd addr s)).trans hr⟩

/-- DRAIN as a list of read addresses and the acknowledge. -/
theorem drain_eq : drain = ((List.range Config.C).map (BitVec.ofNat 9)).map .sndRd ++ [.sndAck] := by
  rw [List.map_map]
  rfl

/-- Settles O28: the reads leave the state but for the response, and the acknowledge clears that. -/
theorem drainOnlySetsTheFlag : Obligations.DrainOnlySetsTheFlag := by
  intro s
  obtain ⟨r, hr⟩ := runOps_sndRds ((List.range Config.C).map (BitVec.ofNat 9)) [.sndAck] s
  rw [drain_eq, hr]
  rfl

/-! ### A word as bytes -/

/-- The four bytes of a word, put together again, are the word (R33). -/
theorem append_bytes_eq (w : CmdWord) :
    w.extractLsb' 24 8 ++ w.extractLsb' 16 8 ++ w.extractLsb' 8 8 ++ w.extractLsb' 0 8 = w := by
  rw [BitVec.extractLsb'_append_extractLsb'_eq_extractLsb' (by rfl),
    BitVec.extractLsb'_append_extractLsb'_eq_extractLsb' (by rfl),
    BitVec.extractLsb'_append_extractLsb'_eq_extractLsb' (by rfl)]
  exact BitVec.extractLsb'_eq_self

theorem decodeBytes_bytesOfWord (w : CmdWord) (rest : List Byte) :
    decodeBytes (bytesOfWord w ++ rest) = (decode w).map fun i => (i, rest) := by
  simp only [bytesOfWord, List.cons_append, List.nil_append, decodeBytes, append_bytes_eq]
  cases decode w with
  | ok i => rfl
  | error e => rfl

/-- Settles O6: decoding the rendered bytes pairs what the word decodes to with the bytes after it. -/
theorem renderedBytesDecodeAsTheWord : Obligations.RenderedBytesDecodeAsTheWord := by
  intro w rest i
  rw [decodeBytes_bytesOfWord]
  cases decode w with
  | ok j => simp [Except.map]
  | error e => simp [Except.map]

end Sys2Proof.Machine
end

section
/-!
The encoding (spec/30_encoding.md): a command word read and written field by field (R51, R52), so that decoding and
encoding are inverse to each other (R53, R60), and the fields each row of the opcode map fixes, so that the words no row
takes are those R54 lists; then the effects of an illegal word (R54), of KBD_LINE (R62), and the responses (R55).
-/
namespace Sys2Proof.Machine

/-! ### Fields of a command word -/

/-- The mask of the `n` bits of a command word from bit `lo` on. -/
abbrev fieldMask (lo n : Nat) : CmdWord := (BitVec.allOnes n).setWidth 32 <<< lo

/-- A field read out of a word and put back in its place. -/
theorem placed_extract (w : CmdWord) (lo n : Nat) : (w.extractLsb' lo n).setWidth 32 <<< lo = w &&& fieldMask lo n := by
  ext i hi
  by_cases hlo : i < lo
  · simp [hlo]
  · have hadd : lo + (i - lo) = i := by omega
    simp [hlo, hadd, hi, Bool.and_comm]

theorem placed_extract_zero (w : CmdWord) (n : Nat) : (w.extractLsb' 0 n).setWidth 32 = w &&& fieldMask 0 n := by
  simpa using placed_extract w 0 n

/-- A field put in its place is read back. -/
theorem extract_placed {lo n : Nat} (x : BitVec n) (h : lo + n ≤ 32) :
    (x.setWidth 32 <<< lo).extractLsb' lo n = x := by
  ext i hi
  have hlt : lo + i < 32 := by omega
  simp [hi, hlt]

theorem extract_placed_zero {n : Nat} (x : BitVec n) (h : n ≤ 32) : (x.setWidth 32).extractLsb' 0 n = x := by
  simpa using extract_placed (lo := 0) x (by omega)

/-- The low field of a word assembled from a pattern that is 0 there. -/
theorem extract_or_placed {c : CmdWord} {n : Nat} (x : BitVec n) (h : n ≤ 32) (hc : c.extractLsb' 0 n = 0#n) :
    (c ||| x.setWidth 32).extractLsb' 0 n = x := by
  rw [BitVec.extractLsb'_or, hc, extract_placed_zero x h, BitVec.zero_or]

/-- A field put in its place leaves the fields below and above it 0. -/
theorem extract_placed_apart {lo n lo' n' : Nat} (x : BitVec n) (h : lo' + n' ≤ lo ∨ lo + n ≤ lo') :
    (x.setWidth 32 <<< lo).extractLsb' lo' n' = 0#n' := by
  ext i hi
  rcases h with h | h
  · have hlt : lo' + i < lo := by omega
    simp [hlt]
  · have hge : n ≤ lo' + i - lo := by omega
    simp [BitVec.getLsbD_of_ge x _ hge]

theorem extract_placed_zero_apart {n lo' n' : Nat} (x : BitVec n) (h : n ≤ lo') :
    (x.setWidth 32).extractLsb' lo' n' = 0#n' := by
  simpa using extract_placed_apart (lo := 0) x (.inr (by omega))

/-- A flag as a field of one bit. -/
theorem ofBool_getLsbD (w : CmdWord) (lo : Nat) : BitVec.ofBool (w.getLsbD lo) = w.extractLsb' lo 1 := by
  rw [BitVec.getLsbD_eq_extractLsb']
  generalize w.extractLsb' lo 1 = b
  revert b; decide

/-- The slot number of format S is 8 more than SLOT0 (R52). -/
theorem keySlotField_sub (w : CmdWord) : (keySlotField w - 8#4).setWidth 32 = (w.extractLsb' 16 1).setWidth 32 := by
  rw [← ofBool_getLsbD, keySlotField]
  cases w.getLsbD 16 <;> rfl

/-! ### Decoding and encoding -/

theorem Row.pattern_and_mask {r : Row} (hr : r ∈ rows) : r.pattern &&& r.mask = r.pattern := by
  revert r; decide

/-- The word of the operation a row builds out of `w`: the row's pattern, and the bits of `w` the row leaves free. Each
operand is a field of `w`, put back in its place. -/
theorem encode_build {r : Row} (hr : r ∈ rows) (w : CmdWord) : encode (r.build w) = r.pattern ||| w &&& ~~~r.mask := by
  have hall : ∀ r ∈ rows, encode (r.build w) = r.pattern ||| w &&& ~~~r.mask := by
    simp only [rows, List.forall_mem_cons, encode, dataField, addrField, btnField, modeField, melField, slotField,
      subField, mkField, keySlotField_sub, ofBool_getLsbD, placed_extract, placed_extract_zero, BitVec.or_assoc,
      ← BitVec.and_or_distrib_left]
    simp [fieldMask]
  exact hall r hr

/-- Settles O2: a legal word is the pattern of the row it selects, which is the word under the mask, and its free bits. -/
theorem encodeOfDecodeIsTheWord : Obligations.EncodeOfDecodeIsTheWord := by
  intro w i h
  refine ⟨decode_wellFormed h, ?_⟩
  obtain ⟨r, hr, hw, rfl⟩ := decode_ok h
  have hw : w &&& r.mask = r.pattern := hw
  rw [encode_build hr, ← hw, ← BitVec.and_or_distrib_left, BitVec.or_not_self, BitVec.and_allOnes]

/-- Every well-formed operation is what some row builds out of the operation's own word: each field reads the operand
that was put there. -/
theorem exists_build_encode {i : Instr} (hi : WellFormed i) : ∃ k : Fin 13, rows[k].build (encode i) = i := by
  cases i with
  | sndInit => exact ⟨0, rfl⟩
  | sndCfg mode mel => exact ⟨1, by revert mode mel; decide⟩
  | sndWr data => exact ⟨2, congrArg Instr.sndWr (extract_or_placed data (by decide) rfl)⟩
  | sndAck => exact ⟨3, rfl⟩
  | sndRd addr => exact ⟨4, congrArg Instr.sndRd (extract_or_placed addr (by decide) rfl)⟩
  | spkLd data => exact ⟨5, congrArg Instr.spkLd (extract_or_placed data (by decide) rfl)⟩
  | kbdLdm slot sub mask =>
    refine ⟨6, ?_⟩
    show Instr.kbdLdm (slotField _) (subField _) (dataField _) = _
    simp [encode, slotField, subField, dataField, BitVec.extractLsb'_or, extract_placed, extract_placed_apart,
      extract_placed_zero, extract_placed_zero_apart]
  | kbdLds slot mask =>
    refine ⟨7, ?_⟩
    show Instr.kbdLds (keySlotField _) (dataField _) = _
    rcases hi with rfl | rfl <;> simp [encode, keySlotField, dataField, BitVec.extractLsb'_or, extract_placed_zero]
  | kbdLdf slot mk => exact ⟨8, by revert slot mk; decide⟩
  | btnSet btn => exact ⟨9, congrArg Instr.btnSet (extract_or_placed btn (by decide) rfl)⟩
  | kprobe sel => exact ⟨10, congrArg Instr.kprobe (extract_or_placed sel (by decide) rfl)⟩
  | kprobeA => exact ⟨11, rfl⟩
  | kprobeB => exact ⟨12, rfl⟩

/-- The word of what a row builds selects the row. -/
theorem Row.selects_encode_build {r : Row} (hr : r ∈ rows) (w : CmdWord) : r.Selects (encode (r.build w)) := by
  show encode (r.build w) &&& r.mask = r.pattern
  rw [encode_build hr, BitVec.and_or_distrib_right, Row.pattern_and_mask hr, BitVec.and_assoc, BitVec.not_and_self]
  simp

/-- Settles O1: the row that builds the operation out of its own word is the row that word selects. -/
theorem decodeOfEncodeIsTheOperation : Obligations.DecodeOfEncodeIsTheOperation := by
  intro i hi
  obtain ⟨k, hk⟩ := exists_build_encode hi
  have hr : rows[k] ∈ rows := List.getElem_mem _
  have hsel : rows[k].Selects (encode i) := by
    rw [← hk]
    exact Row.selects_encode_build hr (encode i)
  rw [decode_of_selects hr hsel, hk]

/-- Settles O3: of two rows the earlier one, selected, keeps the later one from being selected. -/
theorem noWordMatchesTwoRows : Obligations.NoWordMatchesTwoRows := by
  intro w m n hm hn hwm hwn
  have hdisjoint := List.pairwise_iff_getElem.1 rows_disjoint
  rcases Nat.lt_trichotomy m n with hlt | heq | hgt
  · exact absurd hwn (Row.Selects.not_other (hdisjoint m n hm hn hlt) hwm)
  · exact heq
  · exact absurd hwm (Row.Selects.not_other (hdisjoint n m hn hm hgt) hwn)

/-! ### Illegal words (R54) -/

/-- Two words agree under a mask when they agree at each of its bits. -/
theorem and_eq_and_iff (w p m : CmdWord) :
    w &&& m = p &&& m ↔ ∀ i, m.getLsbD i = true → w.getLsbD i = p.getLsbD i := by
  constructor
  · intro h i hm
    simpa [hm] using congrArg (fun x => x.getLsbD i) h
  · intro h
    refine BitVec.eq_of_getLsbD_eq fun i _ => ?_
    cases hm : m.getLsbD i with
    | false => simp [hm]
    | true => simp [hm, h i hm]

theorem and_or_eq_and_or_iff (w p m₁ m₂ : CmdWord) :
    w &&& (m₁ ||| m₂) = p &&& (m₁ ||| m₂) ↔ w &&& m₁ = p &&& m₁ ∧ w &&& m₂ = p &&& m₂ := by
  simp only [and_eq_and_iff, BitVec.getLsbD_or, Bool.or_eq_true, or_imp, forall_and]

theorem and_fieldMask_eq_iff (w p : CmdWord) {lo n : Nat} (h : lo + n ≤ 32) :
    w &&& fieldMask lo n = p &&& fieldMask lo n ↔ w.extractLsb' lo n = p.extractLsb' lo n := by
  rw [← placed_extract, ← placed_extract]
  constructor
  · intro he
    rw [← extract_placed (w.extractLsb' lo n) h, he, extract_placed _ h]
  · intro he
    rw [he]

/-- A field `W[hi:lo]` of a format with the value the format gives it. -/
structure FixedField where
  hi : Nat
  lo : Nat
  value : Nat

/-- The bits of the fields. -/
def maskOf : List FixedField → CmdWord
  | [] => 0#32
  | f :: fs => fieldMask f.lo (f.hi + 1 - f.lo) ||| maskOf fs

theorem and_maskOf_eq_iff (w p : CmdWord) {fs : List FixedField} (h : ∀ f ∈ fs, f.hi < 32 ∧ f.lo ≤ f.hi) :
    w &&& maskOf fs = p &&& maskOf fs ↔ ∀ f ∈ fs, fieldOf w f.hi f.lo = fieldOf p f.hi f.lo := by
  induction fs with
  | nil => simp [maskOf]
  | cons f fs ih =>
    rw [List.forall_mem_cons] at h ⊢
    obtain ⟨⟨hhi, hlo⟩, hfs⟩ := h
    rw [maskOf, and_or_eq_and_or_iff, and_fieldMask_eq_iff w p (by omega), ih hfs, fieldOf, fieldOf, BitVec.toNat_inj]

/-- What each row of the opcode map fixes, row by row: the opcode, the bits that must be 0, and for slots 0 to 7 and for
slots 8 and 9 the upper bits of the slot number (R51, R53). -/
def fixedFields : List (List FixedField) := [
  [⟨31, 28, 0x1⟩, ⟨27, 0, 0⟩],
  [⟨31, 28, 0x2⟩, ⟨27, 9, 0⟩, ⟨7, 3, 0⟩],
  [⟨31, 28, 0x3⟩, ⟨27, 8, 0⟩],
  [⟨31, 28, 0x4⟩, ⟨27, 0, 0⟩],
  [⟨31, 28, 0x5⟩, ⟨27, 9, 0⟩],
  [⟨31, 28, 0x6⟩, ⟨27, 8, 0⟩],
  [⟨31, 28, 0x8⟩, ⟨27, 20, 0⟩, ⟨19, 19, 0⟩, ⟨15, 10, 0⟩],
  [⟨31, 28, 0x8⟩, ⟨27, 20, 0⟩, ⟨19, 17, 4⟩, ⟨15, 8, 0⟩],
  [⟨31, 28, 0x9⟩, ⟨27, 20, 0⟩, ⟨19, 19, 0⟩, ⟨15, 1, 0⟩],
  [⟨31, 28, 0xA⟩, ⟨27, 10, 0⟩],
  [⟨31, 28, 0xB⟩, ⟨27, 8, 0⟩],
  [⟨31, 28, 0xC⟩, ⟨27, 0, 0⟩],
  [⟨31, 28, 0xD⟩, ⟨27, 0, 0⟩]]

/-- The row's mask and pattern are those of the fields. -/
abbrev Fixes (r : Row) (fs : List FixedField) : Prop :=
  r.mask = maskOf fs ∧ r.pattern &&& r.mask = r.pattern ∧
    ∀ f ∈ fs, (f.hi < 32 ∧ f.lo ≤ f.hi) ∧ fieldOf r.pattern f.hi f.lo = f.value

theorem rows_fix : List.Forall₂ Fixes rows fixedFields := by decide

theorem selects_iff_fields {r : Row} {fs : List FixedField} (h : Fixes r fs) (w : CmdWord) :
    r.Selects w ↔ ∀ f ∈ fs, fieldOf w f.hi f.lo = f.value := by
  obtain ⟨hmask, hpattern, hfs⟩ := h
  calc r.Selects w
    _ ↔ w &&& maskOf fs = r.pattern &&& maskOf fs := by rw [← hmask, hpattern]
    _ ↔ ∀ f ∈ fs, fieldOf w f.hi f.lo = fieldOf r.pattern f.hi f.lo := and_maskOf_eq_iff w _ fun f hf => (hfs f hf).1
    _ ↔ ∀ f ∈ fs, fieldOf w f.hi f.lo = f.value := forall₂_congr fun f hf => by rw [(hfs f hf).2]

/-- A word selects no row exactly when it misses some field of each. -/
theorem no_row_selects_iff_fields {rs : List Row} {fss : List (List FixedField)} (h : List.Forall₂ Fixes rs fss)
    (w : CmdWord) : (∀ r ∈ rs, ¬ r.Selects w) ↔ ∀ fs ∈ fss, ¬ ∀ f ∈ fs, fieldOf w f.hi f.lo = f.value := by
  induction h with
  | nil => simp
  | cons hfix _ ih => rw [List.forall_mem_cons, List.forall_mem_cons, selects_iff_fields hfix, ih]

theorem fieldOf_eq (w : CmdWord) (hi lo : Nat) : fieldOf w hi lo = w.toNat / 2 ^ lo % 2 ^ (hi + 1 - lo) := by
  rw [fieldOf, BitVec.extractLsb'_toNat, Nat.shiftRight_eq_div_pow]

/-- `W[19]` is 0 for the slot numbers 0 to 7. -/
theorem field_19_19_eq_iff (w : CmdWord) : fieldOf w 19 19 = 0 ↔ fieldOf w 19 16 < 8 := by
  rw [fieldOf_eq, fieldOf_eq]; omega

/-- `W[19:17]` is 100 for the slot numbers 8 and 9. -/
theorem field_19_17_eq_iff (w : CmdWord) : fieldOf w 19 17 = 4 ↔ fieldOf w 19 16 = 8 ∨ fieldOf w 19 16 = 9 := by
  rw [fieldOf_eq, fieldOf_eq]; omega

/-- The words no row takes are those R54 lists, opcode by opcode. -/
theorem no_row_selects_iff_illegalWord (w : CmdWord) : (∀ r ∈ rows, ¬ r.Selects w) ↔ IllegalWord w := by
  have hop : fieldOf w 31 28 < 16 := by rw [fieldOf_eq]; omega
  rw [no_row_selects_iff_fields rows_fix]
  simp only [fixedFields, List.forall_mem_cons, field_19_19_eq_iff, field_19_17_eq_iff, IllegalWord]
  generalize fieldOf w 31 28 = op at hop ⊢
  interval_cases op <;> simp [IllegalClass] <;> omega

theorem decode_error_iff_illegalWord (w : CmdWord) : (∃ e, decode w = .error e) ↔ IllegalWord w :=
  decode_error_iff.trans (no_row_selects_iff_illegalWord w)

theorem decode_ne_ok {w : CmdWord} (hw : IllegalWord w) (i : Instr) : decode w ≠ .ok i := by
  obtain ⟨e, he⟩ := (decode_error_iff_illegalWord w).2 hw
  rw [he]
  exact nofun

/-- Settles O4: the rejected words are those no row takes, and `step` answers them by `raise`. -/
theorem illegalWordsRaiseIllegalCommand : Obligations.IllegalWordsRaiseIllegalCommand := by
  refine ⟨decode_error_iff_illegalWord, fun s w rest hs hw => ?_⟩
  obtain ⟨e, he⟩ := (decode_error_iff_illegalWord w).2 hw
  rw [step_command_error hs he]
  rfl

/-- Settles O32: the decoder builds well-formed operations only. -/
theorem kbdLdsStopsOnAnotherSlot : Obligations.KbdLdsStopsOnAnotherSlot := by
  intro slot mask s h₈ h₉
  refine ⟨exec_kbdLds_otherSlot mask s h₈ h₉, fun w hw => ?_⟩
  have hslot : slot = 8#4 ∨ slot = 9#4 := decode_wellFormed hw
  exact hslot.elim h₈ h₉

/-- Settles O5: the legal words by running the decoder, the others because they are among those R54 lists. -/
theorem workedEncodingsDecode : Obligations.WorkedEncodingsDecode := by
  refine ⟨rfl, rfl, rfl, rfl, rfl, rfl, rfl, rfl, rfl, rfl, rfl, rfl, rfl, rfl, rfl, rfl, rfl, rfl, rfl, rfl, rfl,
    ?_⟩
  simp only [List.forall_mem_cons]
  exact ⟨decode_ne_ok (by decide), decode_ne_ok (by decide), decode_ne_ok (by decide), decode_ne_ok (by decide),
    decode_ne_ok (by decide), decode_ne_ok (by decide), decode_ne_ok (by decide), decode_ne_ok (by decide),
    decode_ne_ok (by decide), decode_ne_ok (by decide), fun _ h => nomatch h⟩

/-! ### The pseudo-operation KBD_LINE (R62) -/

@[simp] theorem lineAt_respond (r : Option Response) (s : State) (x : BitVec 3) :
    lineAt (respond r s) x = lineAt s x := rfl

theorem subMask_setMask (slot x : BitVec 3) (sub j : BitVec 2) (mask : Byte) (s : State) :
    subMask (lineAt (setMask slot sub mask s) x) j = if x = slot ∧ j = sub then mask else subMask (lineAt s x) j := by
  rw [lineAt_setMask]
  by_cases hx : x = slot
  · subst hx
    simp only [true_and, if_true]
    exact masks_set_get _ _ _ _
  · simp [hx]

theorem subMask_setMultikey (slot x : BitVec 3) (mk : Bool) (j : BitVec 2) (s : State) :
    subMask (lineAt (setMultikey slot mk s) x) j = subMask (lineAt s x) j := by
  rw [lineAt_setMultikey]
  by_cases hx : x = slot
  · subst hx; simp [subMask]
  · simp [hx]

/-- Settles O34: each load overwrites its part of the entry, keeps the other parts, and touches no other entry. -/
theorem kbdLineLoadsTheWholeEntry : Obligations.KbdLineLoadsTheWholeEntry := by
  intro slot m0 m1 m2 m3 mk s
  refine ⟨_, rfl, ?_, ?_, ?_, ?_, ?_, fun x hx => ?_, ?_⟩
  · simp [subMask_setMultikey, subMask_setMask]
  · simp [subMask_setMultikey, subMask_setMask]
  · simp [subMask_setMultikey, subMask_setMask]
  · simp [subMask_setMultikey, subMask_setMask]
  · simp [lineAt_setMultikey]
  · simp [lineAt_setMultikey, lineAt_setMask, hx]
  · simp only [respond, setMultikey, setMask]

/-! ### Responses (R55) -/

/-- Settles O46: every operation ends by `respond`, and SND_WR answers nothing, the overrun included. -/
theorem fourOperationsRespond : Obligations.FourOperationsRespond := by
  intro i s t h
  cases i with
  | sndRd addr => obtain rfl : t = _ := exec_next h; exact ⟨_, rfl⟩
  | sndWr data =>
    obtain ⟨b, c, rfl, -⟩ := execSndWr_after (exec_next h)
    rfl
  | kbdLds slot mask =>
    obtain ⟨k₈, k₉, rfl⟩ := exec_kbdLds_frame h
    rfl
  | kprobe sel =>
    obtain ⟨k, joy, rfl, -⟩ := exec_next h
    exact ⟨k, rfl⟩
  | kprobeA => obtain rfl : t = _ := exec_next h; exact ⟨_, rfl⟩
  | kprobeB => obtain rfl : t = _ := exec_next h; exact ⟨_, rfl⟩
  | _ => obtain rfl : t = _ := exec_next h; rfl

end Sys2Proof.Machine
end

section
/-!
The audio operations one at a time (spec/40_audio.md R70 to R78): what each writes, what each leaves, and the byte a
SND_WR stores (R74 to R76, R80).
-/
namespace Sys2Proof.Machine

/-! ### The operations other than SND_WR -/

/-- Settles O11, by what `soundInit` leaves in each register. -/
theorem sndInitClearsCursorAndFlag : Obligations.SndInitClearsCursorAndFlag :=
  fun _ => ⟨_, rfl, rfl, rfl, rfl, rfl, rfl, ⟨rfl, rfl, rfl, rfl, rfl⟩, rfl, rfl, rfl⟩

/-- Settles O13: the operation is that record update. -/
theorem sndCfgLoadsModeAndMelody : Obligations.SndCfgLoadsModeAndMelody := fun _ _ _ => rfl

/-- Settles O14: the operation is that record update. -/
theorem spkLdLoadsTheLatch : Obligations.SpkLdLoadsTheLatch := fun _ _ => rfl

/-- Settles O15: the operation is that record update, and the update is idempotent. -/
theorem sndAckSetsTheFlag : Obligations.SndAckSetsTheFlag := fun _ => ⟨_, rfl, rfl, rfl⟩

/-- Settles O16: every 9-bit address is in the store. -/
theorem sndRdAnswersTheByte : Obligations.SndRdAnswersTheByte := exec_sndRd

/-! ### SND_WR -/

/-- Settles O17, by the equations of SND_WR with room in the store and with the store full. -/
theorem sndWrStoresAtTheCursorOrOverruns : Obligations.SndWrStoresAtTheCursorOrOverruns := by
  intro data s hd
  refine ⟨fun hi => ?_, execSndWr_overruns data hd⟩
  exact ⟨_, execSndWr_stores data hd hi, bufByte_eq_written rfl, fun a ha => bufByte_eq_other rfl rfl ha,
    cursor_succ hi, rfl, hd, rfl, rfl, ⟨rfl, rfl, rfl, rfl, rfl⟩, rfl, ⟨rfl, rfl⟩, rfl⟩

theorem not_overruns_of_drained {s : State} (hd : s.drained = true) : ¬ Overruns s := by
  simp [Overruns, hd]

/-- A SND_WR that finds room answers, and changes the store, the cursor, the flag and the latch only. -/
theorem execSndWr_finds_room {s : State} (data : Byte) (hi : s.idx.toNat ≤ 512) (ho : ¬ Overruns s) :
    ∃ b c, execSndWr data s =
      .next { s with buf := b, idx := c, drained := false, spk := emitted data s, response := none } := by
  obtain ⟨t, ht⟩ := execSndWr_answers data hi
  obtain ⟨b, c, rfl, -⟩ := execSndWr_after ht
  exact ⟨b, c, by rw [ht, afterSndWr_stores data b c ho]⟩

/-- A SND_WR that finds room leaves the cursor just after the address it stores at. -/
theorem execSndWr_idx_of_room {s t : State} {data : Byte} (h : execSndWr data s = .next t) (ho : ¬ Overruns s) :
    t.idx.toNat = writeAddr s + 1 := by
  rw [execSndWr_idx h, if_neg ho]

theorem execSndWr_stored_byte {s t : State} {data : Byte} (h : execSndWr data s = .next t) (ho : ¬ Overruns s) :
    bufByte t (writeAddr s) = emitted data s := by
  simp [execSndWr_bytes h, ho]

/-- Settles O18: with the flag set the write address is the shifted cursor, so the bytes below it are the moved tail. -/
theorem sndWrTakesTheDrainAndKeepsTheTail : Obligations.SndWrTakesTheDrainAndKeepsTheTail := by
  intro data s hd hi
  have ho := not_overruns_of_drained hd
  have haddr : writeAddr s = s.idx.toNat - 256 := if_pos hd
  obtain ⟨b, c, hx⟩ := execSndWr_finds_room data hi ho
  have hbytes := execSndWr_bytes hx
  simp only [if_neg ho, hd, haddr, true_and] at hbytes
  refine ⟨_, hx, rfl, haddr ▸ execSndWr_idx_of_room hx ho, fun a ha => ?_, haddr ▸ execSndWr_stored_byte hx ho,
    fun a ha => ?_, rfl, rfl, rfl, ⟨rfl, rfl, rfl, rfl, rfl⟩, rfl, ⟨rfl, rfl⟩, rfl⟩
  · rw [hbytes, if_pos ha]
  · rw [hbytes, if_neg (by omega), if_neg (by omega)]

/-! ### Routing (R75) -/

/-- The routing table as a chain of tests of the melody flag and the mode code. -/
theorem emitted_eq_table (data : Byte) (s : State) :
    emitted data s =
      if s.mel = true then data
      else if s.mode = 1#3 then data &&& 0x01#8
      else if s.mode = 2#3 then (data >>> 1) &&& 0x01#8
      else if s.mode = 3#3 then data &&& 0x03#8
      else if s.mode = 4#3 then (s.spk &&& 0xFE#8) ||| (data &&& 0x01#8)
      else if s.mode = 5#3 then (s.spk &&& 0xFD#8) ||| ((data <<< 1) &&& 0x02#8)
      else data &&& 0x01#8 := by
  unfold emitted route routingOf
  split_ifs <;> rfl

/-- Settles O19: a SND_WR that finds room leaves the emitted byte in the latch and just below the cursor. -/
theorem sndWrEmitsByTheRoutingTable : Obligations.SndWrEmitsByTheRoutingTable := by
  intro data s hroom
  have hi : s.idx.toNat ≤ 512 := by omega
  have ho : ¬ Overruns s := fun ⟨hd, hfull⟩ => by simp [hd, hfull] at hroom
  obtain ⟨b, c, hx⟩ := execSndWr_finds_room data hi ho
  refine ⟨_, hx, ?_, emitted_eq_table data s⟩
  rw [execSndWr_idx_of_room hx ho]
  exact execSndWr_stored_byte hx ho

end Sys2Proof.Machine
end

section
/-!
Runs of audio operations: the latch under a fixed mode (spec/40_audio.md R81), the bounds of the cursor under the drain
deadline (R83, R134), and the continuity of the sample stream (R84).
-/
namespace Sys2Proof.Machine

/-! ### Induction over a run -/

theorem exec_of_runOps_cons {i : Instr} {ops : List Instr} {s u : State} (h : runOps (i :: ops) s = some u) :
    ∃ t, exec i s = .next t ∧ runOps ops t = some u := by
  rw [runOps] at h
  cases hx : exec i s with
  | next t => exact ⟨t, rfl, by simpa [hx, nextOf] using h⟩
  | fault r => simp [hx, nextOf] at h
  | refused r => simp [hx, nextOf] at h

/-- What each operation of a run keeps, the run keeps. -/
theorem runOps_keeps {P : State → Prop} {ops : List Instr}
    (hstep : ∀ i ∈ ops, ∀ s t, exec i s = .next t → P s → P t) {s t : State}
    (h : runOps ops s = some t) (hs : P s) : P t := by
  induction ops generalizing s with
  | nil => cases h; exact hs
  | cons i ops ih =>
    rw [List.forall_mem_cons] at hstep
    obtain ⟨u, hu, hrest⟩ := exec_of_runOps_cons h
    exact ih hstep.2 hrest (hstep.1 s u hu hs)

/-! ### The latch under a fixed mode (R81) -/

/-- The bits a write supplies do not disturb those kept from the latch. -/
theorem and_or_and_apart (p d : Byte) {kept given : Byte} (h : given &&& kept = 0#8) :
    ((p &&& kept) ||| (d &&& given)) &&& kept = p &&& kept := by
  rw [BitVec.and_or_distrib_right, BitVec.and_assoc, BitVec.and_assoc, h, BitVec.and_self, BitVec.and_zero,
    BitVec.or_zero]

/-- A latch that holds a byte emitted before supplies the same bits as the latch that byte was emitted from. -/
theorem route_route (mel : Bool) (mode : BitVec 3) (prev data data' : Byte) :
    route mel mode (route mel mode prev data') data = route mel mode prev data := by
  have hr1s1 := fun p d => and_or_and_apart p d (kept := 0xFE#8) (given := 0x01#8) rfl
  have hs1r1 := fun p d => and_or_and_apart p d (kept := 0xFD#8) (given := 0x02#8) rfl
  cases mel with
  | true => rfl
  | false => cases hm : routingOf mode <;> simp [route, hm, hr1s1, hs1r1]

/-- The two states emit the same byte for every write value, under the same configuration. -/
structure SameRouting (s t : State) : Prop where
  mel : t.mel = s.mel
  mode : t.mode = s.mode
  emitted : ∀ data, emitted data t = emitted data s

theorem SameRouting.refl (s : State) : SameRouting s s := ⟨rfl, rfl, fun _ => rfl⟩

theorem SameRouting.trans {s t u : State} (h : SameRouting s t) (h' : SameRouting t u) : SameRouting s u :=
  ⟨h'.mel.trans h.mel, h'.mode.trans h.mode, fun data => (h'.emitted data).trans (h.emitted data)⟩

/-- States with the same configuration and latch emit the same. -/
theorem SameRouting.of_same {s t : State} (hmel : t.mel = s.mel) (hmode : t.mode = s.mode) (hspk : t.spk = s.spk) :
    SameRouting s t :=
  ⟨hmel, hmode, fun data => by simp only [Machine.emitted, hmel, hmode, hspk]⟩

theorem execSndWr_sameRouting {s t : State} {data : Byte} (h : execSndWr data s = .next t) : SameRouting s t := by
  obtain ⟨b, c, rfl, -⟩ := execSndWr_after h
  by_cases ho : Overruns s
  · exact .of_same rfl rfl (if_pos ho)
  · rw [afterSndWr_stores data b c ho]
    exact ⟨rfl, rfl, fun data' => route_route s.mel s.mode s.spk data' data⟩

theorem exec_sameRouting {i : Instr} {s t : State} (h : exec i s = .next t)
    (hi : (∀ d, i ≠ .spkLd d) ∧ ∀ m e, i ≠ .sndCfg m e) : SameRouting s t := by
  obtain ⟨hspkLd, hsndCfg⟩ := hi
  cases i with
  | spkLd d => exact absurd rfl (hspkLd d)
  | sndCfg m e => exact absurd rfl (hsndCfg m e)
  | sndWr data => exact execSndWr_sameRouting (exec_next h)
  | _ =>
    obtain ⟨-, -, hspk, hconfig, -⟩ := registersChangeOnlyByTheirOperations _ s t h
    obtain ⟨hmode, hmel⟩ := hconfig trivial
    exact .of_same hmel hmode (hspk trivial)

/-- Outside the two latch modes the emitted byte does not depend on the latch (R75). -/
theorem emitted_ignores_latch {s : State} (h : s.mel = true ∨ (s.mode ≠ 4#3 ∧ s.mode ≠ 5#3)) (data p : Byte) :
    emitted data { s with spk := p } = emitted data s := by
  rcases h with hmel | ⟨h₄, h₅⟩
  · simp only [emitted_eq_table, if_pos hmel]
  · simp only [emitted_eq_table, if_neg h₄, if_neg h₅]

/-- Settles O23: a SND_WR leaves a latch that routes as the one before it, so the run emits as its first state does. -/
theorem latchWriteIsInvisibleUnderAFixedMode : Obligations.LatchWriteIsInvisibleUnderAFixedMode := by
  intro ops s t hops hrun data
  have hsame : SameRouting s t :=
    runOps_keeps (P := SameRouting s) (fun i hi _ _ hx hs => hs.trans (exec_sameRouting hx (hops i hi))) hrun (.refl s)
  refine ⟨fun hmel hmode => ?_, fun hmel hmode => ?_, fun hmode p => ?_⟩
  · rw [hsame.emitted, emitted_eq_table]
    simp [hmel, hmode]
  · rw [hsame.emitted, emitted_eq_table]
    simp [hmel, hmode]
  · exact emitted_ignores_latch (by rwa [hsame.mel, hsame.mode]) data p

/-! ### The cursor and the drain deadline (R83, R134) -/

theorem exec_idx_le {i : Instr} {s t : State} (h : exec i s = .next t) (hs : s.idx.toNat ≤ 512) :
    t.idx.toNat ≤ 512 := by
  cases i with
  | sndInit => obtain rfl : t = _ := exec_next h; exact Nat.zero_le _
  | sndWr data => exact execSndWr_idx_le (exec_next h)
  | _ =>
    obtain ⟨hstore, -⟩ := registersChangeOnlyByTheirOperations _ s t h
    exact (hstore trivial).2 ▸ hs

/-- The count of `KeepsDeadline` after operation `i`: the SND_WR without a drain to take since the last one with it, or
since SND_INIT. -/
def undrainedWrites (i : Instr) (n : Nat) (s : State) : Nat :=
  match i with
  | .sndWr _ => if s.drained then 0 else n + 1
  | .sndInit => 0
  | _ => n

theorem keepsDeadline_cons {i : Instr} {ops : List Instr} {n : Nat} {s : State} :
    KeepsDeadline (i :: ops) n s ↔
      undrainedWrites i n s < 256 ∧ ∀ t, exec i s = .next t → KeepsDeadline ops (undrainedWrites i n s) t :=
  Iff.rfl

theorem undrainedWrites_of_drained {s : State} (data : Byte) (n : Nat) (hd : s.drained = true) :
    undrainedWrites (.sndWr data) n s = 0 := by
  simp [undrainedWrites, hd]

theorem undrainedWrites_of_idle {s : State} (data : Byte) (n : Nat) (hd : s.drained = false) :
    undrainedWrites (.sndWr data) n s = n + 1 := by
  simp [undrainedWrites, hd]

/-- A drain leaves the cursor at most 257, and every SND_WR counted since moved it on by one. -/
theorem exec_idx_le_undrainedWrites {i : Instr} {n : Nat} {s t : State} (h : exec i s = .next t)
    (hs : s.idx.toNat ≤ 257 + n) : t.idx.toNat ≤ 257 + undrainedWrites i n s := by
  cases i with
  | sndInit => obtain rfl : t = _ := exec_next h; exact Nat.zero_le _
  | sndWr data =>
    rcases execSndWr_cases (exec_next h) with ⟨hd, -, rfl⟩ | ⟨hd, hi, rfl⟩ | ⟨hd, hi, -, hidx, -⟩
    · rw [undrainedWrites_of_idle data n hd, raise_idx]; omega
    · rw [undrainedWrites_of_idle data n hd, cursor_succ hi]; omega
    · rw [undrainedWrites_of_drained data n hd]; omega
  | _ =>
    obtain ⟨hstore, -⟩ := registersChangeOnlyByTheirOperations _ s t h
    exact (hstore trivial).2 ▸ hs

/-- An operation records a fault only as a SND_WR that overruns. -/
theorem exec_noFault {i : Instr} {s t : State} (h : exec i s = .next t) (hs : NoFault s)
    (ho : ∀ data, i = .sndWr data → ¬ Overruns s) : NoFault t := by
  cases i with
  | sndWr data =>
    obtain ⟨b, c, rfl, -⟩ := execSndWr_after (exec_next h)
    rw [afterSndWr_stores data b c (ho data rfl)]
    exact hs
  | _ =>
    obtain ⟨-, -, -, -, -, -, -, -, hfault, -⟩ := registersChangeOnlyByTheirOperations _ s t h
    exact (hfault trivial).trans hs

/-- What a run that keeps the deadline keeps, `n` being the count of SND_WR without a drain. -/
structure DeadlineInv (n : Nat) (s : State) : Prop where
  count : n < 256
  cursor : s.idx.toNat ≤ 257 + n
  noFault : NoFault s

/-- With a count that may still grow the store is not full. -/
theorem DeadlineInv.not_overruns {n : Nat} {s : State} {data : Byte} (hs : DeadlineInv n s)
    (hn : undrainedWrites (.sndWr data) n s < 256) : ¬ Overruns s := by
  rintro ⟨hd, hfull⟩
  have hcursor := hs.cursor
  rw [undrainedWrites_of_idle data n hd] at hn
  omega

theorem exec_keeps_deadlineInv {i : Instr} {n : Nat} {s t : State} (h : exec i s = .next t)
    (hn : undrainedWrites i n s < 256) (hs : DeadlineInv n s) : DeadlineInv (undrainedWrites i n s) t where
  count := hn
  cursor := exec_idx_le_undrainedWrites h hs.cursor
  noFault := exec_noFault h hs.noFault fun _ hi => hs.not_overruns (hi ▸ hn)

/-- A run of well-formed operations that keeps the deadline goes through to its end. -/
theorem DeadlineInv.runOps_answers {ops : List Instr} {n : Nat} {s : State} (hs : DeadlineInv n s)
    (hw : ∀ i ∈ ops, WellFormed i) (hk : KeepsDeadline ops n s) : ∃ t, runOps ops s = some t ∧ NoFault t := by
  induction ops generalizing n s with
  | nil => exact ⟨s, rfl, hs.noFault⟩
  | cons i ops ih =>
    rw [List.forall_mem_cons] at hw
    obtain ⟨hn, hk⟩ := keepsDeadline_cons.1 hk
    have hi : s.idx.toNat ≤ 512 := by have := hs.cursor; have := hs.count; omega
    obtain ⟨u, hu⟩ := exec_answers hw.1 hi
    rw [runOps_cons_of_next ops hu]
    exact ih (exec_keeps_deadlineInv hu hn hs) hw.2 (hk u hu)

/-- Settles O25: the cursor is at most 257 plus the count the deadline keeps below 256. -/
theorem drainDeadlinePreventsOverrun : Obligations.DrainDeadlinePreventsOverrun := by
  refine ⟨fun ops s t hs hrun => ?_, fun ops s hi _ hf hw hk => ?_⟩
  · exact runOps_keeps (P := fun s => s.idx.toNat ≤ 512) (fun _ _ _ _ => exec_idx_le) hrun hs
  · have hs : DeadlineInv 0 s := ⟨by decide, by simp [hi], hf⟩
    exact hs.runOps_answers hw hk

/-! ### Stream continuity (R84) -/

/-- The store below the cursor is the end of the stream, from the first byte that no drain has taken on. -/
structure StreamInv (s : State) (g : SampleStream) : Prop where
  pending : s.drained = true → 256 ≤ s.idx.toNat
  length : g.bytes.length = g.drains * 256 + s.idx.toNat
  bytes : ∀ a, a < s.idx.toNat → g.bytes[g.drains * 256 + a]? = some (bufByte s a)

theorem StreamInv.of_empty {s : State} (hi : s.idx = 0#10) (hd : s.drained = false) : StreamInv s ⟨[], 0⟩ where
  pending h := by simp [hd] at h
  length := by simp [hi]
  bytes a ha := by simp [hi] at ha

theorem StreamInv.of_same {s t : State} {g : SampleStream} (hs : StreamInv s g)
    (hb : ∀ a, bufByte t a = bufByte s a) (hi : t.idx = s.idx) (hd : t.drained = true → 256 ≤ s.idx.toNat) :
    StreamInv t g where
  pending := hi ▸ hd
  length := hi ▸ hs.length
  bytes a ha := by rw [hb]; exact hs.bytes a (hi ▸ ha)

/-- After the handshake of a SND_WR its write address is where the stream ends. -/
theorem StreamInv.length_eq_writeAddr {s : State} {g : SampleStream} (hs : StreamInv s g) (data : Byte) :
    (streamAfter (.sndWr data) s g).drains * 256 + writeAddr s = g.bytes.length := by
  have hlength := hs.length
  cases hd : s.drained with
  | false => simp only [streamAfter, writeAddr, hd, Bool.false_eq_true, if_false]; omega
  | true =>
    have hpending := hs.pending hd
    simp only [streamAfter, writeAddr, hd, if_true]; omega

/-- The bytes below the write address are those the stream has there, moved by the tail copy or left in place. -/
theorem StreamInv.bytes_below_writeAddr {s t : State} {g : SampleStream} {data : Byte} (hs : StreamInv s g)
    (h : execSndWr data s = .next t) (ho : ¬ Overruns s) {a : Nat} (ha : a < writeAddr s) :
    g.bytes[(streamAfter (.sndWr data) s g).drains * 256 + a]? = some (bufByte t a) := by
  have hbyte := execSndWr_bytes h a
  rw [if_neg ho] at hbyte
  cases hd : s.drained with
  | false =>
    simp only [writeAddr, hd, Bool.false_eq_true, if_false] at ha
    simp only [streamAfter, hd, Bool.false_eq_true, if_false]
    rw [hs.bytes a ha, hbyte, if_neg (by simp [hd]), if_neg (by simp [writeAddr, hd, ha.ne])]
  | true =>
    rw [if_pos ⟨hd, ha⟩] at hbyte
    simp only [writeAddr, hd, if_true] at ha
    have hmoved : (g.drains + 1) * 256 + a = g.drains * 256 + (256 + a) := by omega
    simp only [streamAfter, hd, if_true]
    rw [hmoved, hs.bytes _ (by omega), hbyte]

theorem execSndWr_keeps_streamInv {s t : State} {g : SampleStream} {data : Byte} (h : execSndWr data s = .next t)
    (ho : ¬ Overruns s) (hs : StreamInv s g) : StreamInv t (streamAfter (.sndWr data) s g) := by
  have hidx := execSndWr_idx_of_room h ho
  have hend := hs.length_eq_writeAddr data
  have hbytes : (streamAfter (.sndWr data) s g).bytes = g.bytes ++ [emitted data s] := rfl
  refine ⟨fun hd => ?_, ?_, fun a ha => ?_⟩
  · have hclear : t.drained = false := drainedFollowsTheLastAudioEvent (.sndWr data) s t h
    simp [hclear] at hd
  · rw [hbytes, List.length_append, List.length_singleton, hidx, ← hend, Nat.add_assoc]
  · rw [hbytes]
    rcases Nat.lt_or_eq_of_le (Nat.le_of_lt_succ (hidx ▸ ha)) with hlt | rfl
    · rw [List.getElem?_append_left (by omega)]
      exact hs.bytes_below_writeAddr h ho hlt
    · rw [hend, List.getElem?_concat_length, execSndWr_stored_byte h ho]

theorem not_overruns_of_paced {s : State} {data : Byte} (h : Paced (.sndWr data) s) : ¬ Overruns s := by
  rintro ⟨hd, hfull⟩
  rcases h with hd' | hi
  · simp [hd] at hd'
  · omega

theorem exec_keeps_streamInv {i : Instr} {s t : State} {g : SampleStream} (h : exec i s = .next t) (hp : Paced i s)
    (hs : StreamInv s g) : StreamInv t (streamAfter i s g) := by
  cases i with
  | sndInit => obtain rfl : t = _ := exec_next h; exact .of_empty rfl rfl
  | sndWr data => exact execSndWr_keeps_streamInv (exec_next h) (not_overruns_of_paced hp) hs
  | sndAck => obtain rfl : t = _ := exec_next h; exact hs.of_same (bufByte_congr rfl rfl) rfl fun _ => hp
  | _ =>
    obtain ⟨hstore, hdrained, -⟩ := registersChangeOnlyByTheirOperations _ s t h
    obtain ⟨hbuf, hidx⟩ := hstore trivial
    exact hs.of_same hbuf hidx (hdrained trivial ▸ hs.pending)

theorem StreamRun.keeps_inv {ops : List Instr} {s t : State} {g h : SampleStream} (hrun : StreamRun ops s g t h)
    (hs : StreamInv s g) : StreamInv t h := by
  induction hrun with
  | done s g => exact hs
  | op i ops s t u g h hp hx _ ih => exact ih (exec_keeps_streamInv hx hp hs)

/-- Settles O27: the host window lies below the cursor, so the stream's next 256 bytes stand in it. -/
theorem drainsConcatenateToTheEmittedStream : Obligations.DrainsConcatenateToTheEmittedStream := by
  intro ops s t h hi hd hrun hfull _ addr haddr
  have hs : StreamInv t h := hrun.keeps_inv (.of_empty hi hd)
  exact ⟨_, hs.bytes addr.toNat (by omega), exec_sndRd addr t⟩

end Sys2Proof.Machine
end

section
/-!
The keyboard operations (spec/41_keyboard.md): the table loads (R90 to R93), KPROBE in closed form (R94 to R100, R103),
what the latch can become (R104), the single-key probes (R101, R102), and probes repeated at once (R106).
-/
namespace Sys2Proof.Machine

/-! ### The table loads -/

/-- Settles O29: the operation is that record update. -/
theorem btnSetLoadsTheMask : Obligations.BtnSetLoadsTheMask := fun _ _ => rfl

/-- Settles O31: on its two slots the operation is that record update. -/
theorem kbdLdsLoadsItsKey : Obligations.KbdLdsLoadsItsKey := fun _ _ => ⟨rfl, rfl⟩

theorem multikey_setMask (slot x : BitVec 3) (sub : BitVec 2) (mask : Byte) (s : State) :
    (lineAt (setMask slot sub mask s) x).multikey = (lineAt s x).multikey := by
  rw [lineAt_setMask]
  by_cases hx : x = slot
  · rw [if_pos hx, hx]
  · rw [if_neg hx]

theorem multikey_setMultikey (slot x : BitVec 3) (mk : Bool) (s : State) :
    (lineAt (setMultikey slot mk s) x).multikey = if x = slot then mk else (lineAt s x).multikey := by
  rw [lineAt_setMultikey]
  exact apply_ite Line.multikey _ _ _

/-- Settles O30, by the masks and the flags read after `setMask`. -/
theorem kbdLdmLoadsOneMask : Obligations.KbdLdmLoadsOneMask := fun slot sub mask s =>
  ⟨_, rfl, fun x j => subMask_setMask slot x sub j mask s, fun x => multikey_setMask slot x sub mask s, rfl, rfl, rfl,
    rfl, ⟨fun _ => rfl, rfl, rfl, rfl, rfl, rfl⟩, rfl, ⟨rfl, rfl⟩, rfl⟩

/-- Settles O33, by the flags and the masks read after `setMultikey`. -/
theorem kbdLdfLoadsOneFlag : Obligations.KbdLdfLoadsOneFlag := fun slot mk s =>
  ⟨_, rfl, fun x => multikey_setMultikey slot x mk s, fun x j => subMask_setMultikey slot x mk j s, rfl, rfl, rfl,
    rfl, ⟨fun _ => rfl, rfl, rfl, rfl, rfl, rfl⟩, rfl, ⟨rfl, rfl⟩, rfl⟩

/-! ### The arbiter in the terms of the closed form (R95, R96) -/

theorem isCardinal_iff {p : Byte} : IsCardinal p ↔ ∃ d : Direction, p = d.mask := by
  constructor
  · rintro (h | h | h | h)
    · exact ⟨.left, h⟩
    · exact ⟨.up, h⟩
    · exact ⟨.right, h⟩
    · exact ⟨.down, h⟩
  · rintro ⟨d, rfl⟩
    cases d <;> decide

theorem not_isCardinal_zero : ¬ IsCardinal 0#8 := by decide

/-- The latch resolved by the pressed mask `p`: `p`, with what the latch held except its opposite (R96). -/
def resolvedLatch (p joy : Byte) : Byte := joy &&& ~~~oppositeMask p ||| p

/-- For a direction this is what the arbiter of the model computes. -/
theorem resolve_eq_resolvedLatch (joy : Byte) (d : Direction) : resolve joy d = resolvedLatch d.mask joy := by
  cases d <;> rfl

/-- Resolving by one mask twice is resolving once (R106). -/
theorem resolvedLatch_resolvedLatch (p joy : Byte) : resolvedLatch p (resolvedLatch p joy) = resolvedLatch p joy := by
  unfold resolvedLatch
  ext i hi
  simp only [BitVec.getElem_or, BitVec.getElem_and]
  cases joy[i] <;> cases (~~~oppositeMask p)[i] <;> cases p[i] <;> rfl

theorem resolvedLatch_ne_zero {p : Byte} (hp : p ≠ 0#8) (joy : Byte) : resolvedLatch p joy ≠ 0#8 :=
  fun h => hp (BitVec.or_eq_zero_iff.1 h).2

theorem arbitrate_eq (l : Line) (p joy : Byte) :
    arbitrate l p joy =
      if FourDirections l ∧ IsCardinal p then (resolvedLatch p joy, resolvedLatch p joy) else (p, joy) := by
  unfold arbitrate
  cases hc : cardinal? p with
  | none =>
    have hp : ¬ IsCardinal p := fun h => by
      obtain ⟨d, hd⟩ := isCardinal_iff.1 h
      rw [cardinal?_eq_some.2 hd] at hc
      cases hc
    rw [if_neg (fun h => hp h.2)]
  | some d =>
    obtain rfl : p = d.mask := cardinal?_eq_some.1 hc
    have hiff : fourDir l = true ↔ FourDirections l ∧ IsCardinal d.mask := by
      simp only [fourDir, beq_iff_eq, isCardinal_iff.2 ⟨d, rfl⟩, and_true]
    simp only [hiff, resolve_eq_resolvedLatch]

/-! ### One driven line (R97 to R99) -/

/-- A line contributes the same key lines whether or not the latch has been resolved before it: this is why the loop of
R99 has a closed form. -/
theorem lineKeys_fst_resolvedLatch (l : Line) (p joy : Byte) :
    (lineKeys l p (resolvedLatch p joy)).1 = (lineKeys l p joy).1 := by
  cases hm : l.multikey with
  | false => simp [lineKeys, hm]
  | true =>
    have htested : (arbitrate l p (resolvedLatch p joy)).1 = (arbitrate l p joy).1 := by
      rw [arbitrate_eq, arbitrate_eq, resolvedLatch_resolvedLatch, apply_ite Prod.fst, apply_ite Prod.fst]
    simp only [lineKeys, hm, if_true, htested]

theorem testedMask_eq_ite (s : State) (x : BitVec 3) : testedMask s x =
    if FourDirections (lineAt s x) ∧ IsCardinal (pressed s) then resolvedLatch (pressed s) s.joy else pressed s := rfl

theorem testedMask_eq_arbitrate (s : State) (x : BitVec 3) :
    testedMask s x = (arbitrate (lineAt s x) (pressed s) s.joy).1 := by
  rw [arbitrate_eq, apply_ite Prod.fst, testedMask_eq_ite]

theorem singleKey_getLsbD (l : Line) (p : Byte) (j : BitVec 2) :
    (singleKey l p).getLsbD j.toNat = true ↔ p &&& subMask l j ≠ 0#8 := by
  rw [singleKey, nibble_getLsbD, bne_iff_ne]

/-- Bit `j` of a line's contribution, against the latch the probe found. -/
theorem lineKeys_getLsbD (s : State) (x : BitVec 3) (j : BitVec 2) :
    (lineKeys (lineAt s x) (pressed s) s.joy).1.getLsbD j.toNat = true ↔ SubMatches s x j := by
  cases hm : (lineAt s x).multikey with
  | false => simp only [lineKeys, SubMatches, hm, Bool.false_eq_true, if_false, singleKey_getLsbD]
  | true => simp only [lineKeys, SubMatches, hm, if_true, matchLines, nibble_getLsbD, beq_iff_eq,
    testedMask_eq_arbitrate]

/-- Line `x` is driven, and its arbitration of `p` moves the latch (R96). -/
abbrev LineMoves (s : State) (sel p : Byte) (x : BitVec 3) : Prop :=
  sel.getLsbD x.toNat = true ∧ IsCardinal p ∧ (lineAt s x).multikey = true ∧ FourDirections (lineAt s x)

/-- The latch after one pass of the loop. -/
theorem scanLine_snd (s : State) (sel p : Byte) (acc : KeyLines × Byte) (x : BitVec 3) :
    (scanLine s sel p acc x).2 = if LineMoves s sel p x then resolvedLatch p acc.2 else acc.2 := by
  by_cases hd : sel.getLsbD x.toNat = true
  · by_cases hm : (lineAt s x).multikey = true
    · simp only [scanLine, lineKeys, LineMoves, hd, hm, if_true, true_and, arbitrate_eq, and_comm (a := IsCardinal p)]
      exact apply_ite Prod.snd _ _ _
    · simp [scanLine, lineKeys, LineMoves, hd, hm]
  · simp [scanLine, LineMoves, hd]

/-- The key lines after one pass of the loop. -/
theorem scanLine_fst_getLsbD (s : State) (sel p : Byte) (acc : KeyLines × Byte) (x : BitVec 3) (j : BitVec 2) :
    (scanLine s sel p acc x).1.getLsbD j.toNat = true ↔ acc.1.getLsbD j.toNat = true ∨
      sel.getLsbD x.toNat = true ∧ (lineKeys (lineAt s x) p acc.2).1.getLsbD j.toNat = true := by
  by_cases hd : sel.getLsbD x.toNat = true
  · simp only [scanLine, hd, if_true, true_and, BitVec.getLsbD_or, Bool.or_eq_true]
  · simp [scanLine, hd]

/-! ### The loop over the scan lines (R99) -/

/-- The latch after the loop: resolved once if some line moves it, kept otherwise. -/
theorem scan_snd (s : State) (sel p : Byte) (xs : List (BitVec 3)) (acc : KeyLines × Byte) :
    (xs.foldl (scanLine s sel p) acc).2 =
      if ∃ x ∈ xs, LineMoves s sel p x then resolvedLatch p acc.2 else acc.2 := by
  induction xs generalizing acc with
  | nil => simp
  | cons x xs ih =>
    rw [List.foldl_cons, ih, scanLine_snd]
    by_cases hx : LineMoves s sel p x
    · rw [if_pos hx, resolvedLatch_resolvedLatch, ite_self, if_pos ⟨x, List.mem_cons_self, hx⟩]
    · simp only [List.exists_mem_cons_iff, hx, if_false, false_or]

/-- The key lines after the loop: every line is as if tested against the latch the loop began with. -/
theorem scan_fst_getLsbD (s : State) (sel p : Byte) (xs : List (BitVec 3)) (acc : KeyLines × Byte) (j : BitVec 2) :
    (xs.foldl (scanLine s sel p) acc).1.getLsbD j.toNat = true ↔ acc.1.getLsbD j.toNat = true ∨
      ∃ x ∈ xs, sel.getLsbD x.toNat = true ∧ (lineKeys (lineAt s x) p acc.2).1.getLsbD j.toNat = true := by
  induction xs generalizing acc with
  | nil => simp
  | cons x xs ih =>
    have hlatch : ∀ l, (lineKeys l p (scanLine s sel p acc x).2).1 = (lineKeys l p acc.2).1 := by
      intro l
      rw [scanLine_snd]
      split
      · exact lineKeys_fst_resolvedLatch _ _ _
      · rfl
    simp only [List.foldl_cons, ih, hlatch, scanLine_fst_getLsbD, List.exists_mem_cons_iff, or_assoc]

/-! ### KPROBE in closed form (R94, R99, R100) -/

theorem mem_scanOrder (x : BitVec 3) : x ∈ scanOrder := by
  revert x; decide

/-- The latch a probe leaves, whatever is pressed and driven. -/
theorem probeResult_latch (sel : Byte) (s : State) :
    (probeResult sel s).2 = if MovesLatch s sel then resolvedLatch (pressed s) s.joy else s.joy := by
  have hmoves : (∃ x ∈ scanOrder, LineMoves s sel (pressed s) x) ↔ MovesLatch s sel := by
    simp only [mem_scanOrder, true_and, LineMoves, MovesLatch, and_left_comm (b := IsCardinal _), exists_and_left]
  by_cases hp : pressed s = 0#8
  · have hkeep : ¬ MovesLatch s sel := fun h => not_isCardinal_zero (hp ▸ h.1)
    simp only [probeResult, hp, if_true, if_neg hkeep]
  · simp only [probeResult, hp, if_false, matrixScan, apply_ite Prod.snd, ite_self, scan_snd, hmoves]

/-- With no line driven no probe moves the latch (R100). -/
theorem not_movesLatch_zero (s : State) : ¬ MovesLatch s 0#8 := by
  rintro ⟨-, x, hx, -⟩
  simp at hx

/-- Bit `j` of the key lines with a button pressed: a driven line, or the fallback on slot 1 where none is driven. -/
theorem probeResult_getLsbD {sel : Byte} {s : State} (hp : pressed s ≠ 0#8) (j : BitVec 2) :
    (probeResult sel s).1.getLsbD j.toNat = true ↔
      (∃ x : BitVec 3, sel.getLsbD x.toNat = true ∧ SubMatches s x j) ∨
      sel = 0#8 ∧ pressed s &&& subMask (lineAt s 1) j ≠ 0#8 := by
  have hscan : (scanOrder.foldl (scanLine s sel (pressed s)) (0#4, s.joy)).1.getLsbD j.toNat = true ↔
      ∃ x : BitVec 3, sel.getLsbD x.toNat = true ∧ SubMatches s x j := by
    simp [scan_fst_getLsbD, mem_scanOrder, lineKeys_getLsbD]
  by_cases hs : sel = 0#8
  · subst hs
    simp only [probeResult, hp, matrixScan, if_true, if_false, BitVec.getLsbD_or, Bool.or_eq_true, singleKey_getLsbD,
      true_and, hscan]
  · simp only [probeResult, hp, matrixScan, hs, if_false, false_and, or_false, hscan]

/-- With nothing pressed a probe answers 0 and keeps the latch (R94, R99). -/
theorem probeResult_idle {sel : Byte} {s : State} (hp : pressed s = 0#8) : probeResult sel s = (0#4, s.joy) :=
  if_pos hp

/-- A probe that keeps the latch changes the response only. -/
theorem exec_kprobe_of_latch_kept {sel : Byte} {s : State} (h : ¬ MovesLatch s sel) :
    exec (.kprobe sel) s = .next { s with response := some (.keyLines (probeResult sel s).1) } := by
  rw [exec_kprobe, probeResult_latch, if_neg h]
  rfl

/-- Settles O35: the early return. -/
theorem kprobeWithNothingPressedAnswersZero : Obligations.KprobeWithNothingPressedAnswersZero := by
  intro sel s (hp : pressed s = 0#8)
  rw [exec_kprobe, probeResult_idle hp]
  rfl

/-- Settles O36, by the closed forms of the key lines and of the latch. -/
theorem kprobeAnswersTheMatrix : Obligations.KprobeAnswersTheMatrix := by
  intro sel s hp hs
  refine ⟨_, (probeResult sel s).1, exec_kprobe sel s, rfl, fun j => ?_, fun h => ?_, fun h => ?_⟩
  · simp only [probeResult_getLsbD hp, hs, false_and, or_false]
  · exact (probeResult_latch sel s).trans (if_pos h)
  · exact (probeResult_latch sel s).trans (if_neg h)

/-- Settles O37: no line contributes, none moves the latch, and the fallback is all there is. -/
theorem kprobeFallbackTestsSlotOne : Obligations.KprobeFallbackTestsSlotOne := by
  intro s
  refine ⟨(probeResult 0#8 s).1, exec_kprobe_of_latch_kept (not_movesLatch_zero s), fun j => ?_⟩
  by_cases hp : pressed s = 0#8
  · simp [probeResult_idle hp, hp]
  · simp [probeResult_getLsbD hp]

/-! ### Unused sub-slots (R103) -/

/-- The probe tests line `x`: it is driven, or it is the fallback. -/
abbrev IsTested (sel : Byte) (x : BitVec 3) : Prop := sel.getLsbD x.toNat = true ∨ (sel = 0#8 ∧ x = 1#3)

/-- With a button pressed the mask a line is tested with is never 0. -/
theorem testedMask_ne_zero {s : State} (hp : pressed s ≠ 0#8) (x : BitVec 3) : testedMask s x ≠ 0#8 := by
  rw [testedMask_eq_ite]
  split
  · exact resolvedLatch_ne_zero hp _
  · exact hp

/-- A sub-slot of mask 0 never matches. -/
theorem not_subMatches_of_unused {s : State} {x : BitVec 3} {j : BitVec 2} (hp : pressed s ≠ 0#8)
    (h : subMask (lineAt s x) j = 0#8) : ¬ SubMatches s x j := by
  unfold SubMatches
  split
  · rw [h]; exact testedMask_ne_zero hp x
  · simp [h]

theorem probeResult_unused {sel : Byte} {j : BitVec 2} {s : State}
    (h : ∀ x, IsTested sel x → subMask (lineAt s x) j = 0#8) : (probeResult sel s).1.getLsbD j.toNat = false := by
  by_cases hp : pressed s = 0#8
  · simp [probeResult_idle hp]
  · rw [← Bool.not_eq_true, probeResult_getLsbD hp]
    rintro (⟨x, hx, hmatch⟩ | ⟨hs, hmeets⟩)
    · exact not_subMatches_of_unused hp (h x (.inl hx)) hmatch
    · exact hmeets (by rw [h 1 (.inr ⟨hs, rfl⟩), BitVec.and_zero])

/-- Driven lines of four masks 0 are no four-direction lines (R96). -/
theorem not_movesLatch_of_unused {sel : Byte} {s : State}
    (h : ∀ x, IsTested sel x → ∀ j, subMask (lineAt s x) j = 0#8) : ¬ MovesLatch s sel := by
  rintro ⟨-, x, hx, -, hfour⟩
  simp only [FourDirections, h x (.inl hx)] at hfour
  exact absurd hfour (by decide)

/-- Settles O40: a mask of 0 neither equals a tested mask, meets the pressed one, nor makes up a direction. -/
theorem unusedSubSlotsContributeNothing : Obligations.UnusedSubSlotsContributeNothing := by
  refine ⟨fun sel j s t k h hx hk => ?_, fun sel s h => ?_⟩
  · rw [exec_kprobe] at hx
    cases hx
    cases hk
    exact probeResult_unused h
  · have hk : (probeResult sel s).1 = 0#4 := keyLines_ext fun j => by
      rw [probeResult_unused fun x hx => h x hx j, BitVec.getLsbD_zero]
    rw [exec_kprobe_of_latch_kept (not_movesLatch_of_unused h), hk]

/-! ### The latch (R104) -/

/-- The latch after an operation: kept, or resolved by the pressed direction (R96, R104). -/
theorem exec_joy {i : Instr} {s t : State} (h : exec i s = .next t) :
    t.joy = s.joy ∨ ∃ d : Direction, pressed s = d.mask ∧ t.joy = resolve s.joy d := by
  cases i with
  | kprobe sel =>
    obtain ⟨k, joy, rfl, hj⟩ := exec_next h
    exact hj
  | _ =>
    obtain ⟨-, -, -, -, -, hjoy, -⟩ := registersChangeOnlyByTheirOperations _ s t h
    exact .inl (hjoy trivial)

theorem exec_joyLegal {i : Instr} {s t : State} (h : exec i s = .next t) (hs : JoyLegal s.joy) : JoyLegal t.joy := by
  rcases exec_joy h with hj | ⟨d, -, hj⟩
  · exact hj ▸ hs
  · exact hj ▸ resolve_joyLegal d hs

theorem step_joyLegal {s t : State} (hs : JoyLegal s.joy) (h : step s = .next t) : JoyLegal t.joy := by
  rcases step_next h with ⟨-, rfl⟩ | ⟨rest, -, rfl⟩ | ⟨w, rest, i, -, -, hx⟩ | ⟨w, rest, e, -, -, rfl⟩
  · exact hs
  · exact (by decide : JoyLegal 0#8)
  · exact exec_joyLegal hx hs
  · exact hs

/-- Resolving a direction leaves no axis empty that held one (R104). -/
theorem resolve_keeps_axes (joy : Byte) (d : Direction) :
    (joy &&& 0x05#8 ≠ 0#8 → resolve joy d &&& 0x05#8 ≠ 0#8) ∧
    (joy &&& 0x0A#8 ≠ 0#8 → resolve joy d &&& 0x0A#8 ≠ 0#8) := by
  revert joy
  cases d <;> decide

/-- Resolving a direction in a legal latch: the direction, with the former bit of the other axis (R104). -/
theorem resolve_of_joyLegal {joy : Byte} (d : Direction) (h : JoyLegal joy) :
    resolve joy d = d.mask ||| (joy &&& if d.mask &&& 0x05#8 ≠ 0#8 then 0x0A#8 else 0x05#8) := by
  revert joy
  cases d <;> decide

/-- Settles O41: every change of the latch is one `resolve` of the pressed direction, or the reset to 0. -/
theorem latchStaysLegal : Obligations.LatchStaysLegal := by
  refine ⟨by decide, fun s t => step_joyLegal, fun i s t h => ?_, fun sel s t hs h => ?_⟩
  · rcases exec_joy h with hj | ⟨d, -, hj⟩
    · rw [hj]; exact ⟨id, id⟩
    · rw [hj]; exact resolve_keeps_axes s.joy d
  · refine (exec_joy h).imp_right fun ⟨d, hp, hj⟩ => ⟨isCardinal_iff.2 ⟨d, hp⟩, ?_⟩
    rw [hj, hp]
    exact resolve_of_joyLegal d hs

/-! ### The single-key probes, and probes repeated at once (R101, R102, R106) -/

/-- Settles O38: the meaning of KPROBEA is that answer. -/
theorem kprobeAReadsSlotNine : Obligations.KprobeAReadsSlotNine := fun _ => rfl

/-- Settles O39: the meaning of KPROBEB is that answer. -/
theorem kprobeBReadsSlotEight : Obligations.KprobeBReadsSlotEight := fun _ => rfl

/-- A probe with the latch it left, and all else it reads as before, has the result it had. -/
theorem probeResult_again {sel : Byte} {s t : State} (hp : pressed t = pressed s) (hl : t.lines = s.lines)
    (hj : t.joy = (probeResult sel s).2) : probeResult sel t = probeResult sel s := by
  have hresolved : resolvedLatch (pressed s) t.joy = resolvedLatch (pressed s) s.joy := by
    rw [hj, probeResult_latch]
    split
    · exact resolvedLatch_resolvedLatch _ _
    · rfl
  have hline : ∀ x, lineAt t x = lineAt s x := lineAt_congr hl
  have hmoves : MovesLatch t sel ↔ MovesLatch s sel := by simp only [MovesLatch, hp, hline]
  have htested : ∀ x, testedMask t x = testedMask s x := fun x => by
    simp only [testedMask_eq_ite, hp, hline, hresolved]
  apply Prod.ext
  · by_cases hp₀ : pressed s = 0#8
    · rw [probeResult_idle hp₀, probeResult_idle (hp.trans hp₀)]
    · refine keyLines_ext fun j => ?_
      rw [Bool.eq_iff_iff, probeResult_getLsbD hp₀, probeResult_getLsbD (hp ▸ hp₀)]
      simp only [SubMatches, hp, hline, htested]
  · by_cases hm : MovesLatch s sel
    · rw [probeResult_latch sel t, if_pos (hmoves.2 hm), hp, hresolved, probeResult_latch sel s, if_pos hm]
    · rw [probeResult_latch sel t, if_neg (mt hmoves.1 hm), hj]

/-- Settles O42: a matrix probe leaves a latch from which it has the same result, the other two leave all they read. -/
theorem probesAreIdempotent : Obligations.ProbesAreIdempotent := by
  rintro i s t (⟨sel, rfl⟩ | rfl | rfl) h
  · rw [exec_kprobe] at h
    injection h with h
    have hagain : probeResult sel t = probeResult sel s := by rw [← h]; exact probeResult_again rfl rfl rfl
    rw [exec_kprobe, hagain, ← h]
    rfl
  · obtain rfl : t = _ := exec_next h
    rfl
  · obtain rfl : t = _ := exec_next h
    rfl

end Sys2Proof.Machine
end

section
/-!
A fault taken, and an idle step (spec/60_exceptions.md R112, R114, R122): a step that changes FAULT, other than a
power-on reset, takes one block fault and does nothing else.
-/
namespace Sys2Proof.Machine

/-- An operation that changes FAULT takes an overrun: of the three outcomes of SND_WR the other two keep FAULT. -/
theorem exec_eq_raise_of_fault_ne {i : Instr} {s t : State} (h : exec i s = .next t) (hne : t.fault ≠ s.fault) :
    t = raise .audioOverrun s := by
  cases i with
  | sndWr data =>
    rcases execSndWr_cases (exec_next h) with ⟨-, -, ht⟩ | ⟨-, -, rfl⟩ | ⟨-, -, hframe, -⟩
    · exact ht
    · exact absurd rfl hne
    · exact absurd (by rw [hframe]) hne
  | _ =>
    obtain ⟨-, -, -, -, -, -, -, -, hfault, -⟩ := registersChangeOnlyByTheirOperations _ s t h
    exact absurd (hfault trivial) hne

/-- A step that changes FAULT, other than a power-on reset, takes a block fault once its word has left the port. -/
theorem step_eq_raise_of_fault_ne {s t : State} (h : step s = .next t)
    (hreset : ∀ rest, s.inputs ≠ .powerOnReset :: rest) (hne : t.fault ≠ s.fault) :
    ∃ f rest, t = raise f { s with inputs := rest } := by
  rcases step_next h with ⟨-, rfl⟩ | ⟨rest, hs, -⟩ | ⟨w, rest, i, -, -, hx⟩ | ⟨w, rest, e, -, -, ht⟩
  · exact absurd rfl hne
  · exact absurd hs (hreset rest)
  · exact ⟨_, rest, exec_eq_raise_of_fault_ne hx hne⟩
  · exact ⟨_, rest, ht⟩

/-- Settles O50: such a step is a `raise`, which sets the bit of its fault and ends without a response. -/
theorem faultsArePrecise : Obligations.FaultsArePrecise := by
  intro s t h hreset hne
  obtain ⟨f, rest, rfl⟩ := step_eq_raise_of_fault_ne h hreset hne
  refine ⟨?_, rfl⟩
  cases f with
  | audioOverrun => exact .inl rfl
  | illegalCommand => exact .inr rfl

/-- Settles O8, by the equation of `step` with nothing to take. -/
theorem idleStepKeepsTheState : Obligations.IdleStepKeepsTheState := fun _ => step_idle

end Sys2Proof.Machine
end

section
/-!
Writes without a drain (spec/70_reset_and_hazards.md R134): a run of SND_WR moves the cursor on until the store is full.
-/
namespace Sys2Proof.Machine

/-- A SND_WR with no drain to take and room in the store moves the cursor on by one and raises no fault (R76). -/
theorem exec_sndWr_advances {s : State} (data : Byte) (hd : s.drained = false) (hroom : s.idx.toNat < 512) :
    ∃ t, exec (.sndWr data) s = .next t ∧ t.drained = false ∧ t.idx.toNat = s.idx.toNat + 1 ∧ t.fault = s.fault :=
  ⟨_, execSndWr_stores data hd hroom, hd, cursor_succ hroom, rfl⟩

/-- Writes that fit in the store, with no drain to take, move the cursor on by one each and raise no fault. -/
theorem runOps_sndWrs {ds : List Byte} {s : State} (hd : s.drained = false) (hfit : s.idx.toNat + ds.length ≤ 512) :
    ∃ t, runOps (ds.map .sndWr) s = some t ∧ t.drained = false ∧ t.idx.toNat = s.idx.toNat + ds.length ∧
      t.fault = s.fault := by
  induction ds generalizing s with
  | nil => exact ⟨s, rfl, hd, rfl, rfl⟩
  | cons data ds ih =>
    rw [List.length_cons] at hfit ⊢
    obtain ⟨u, hx, hud, huidx, hufault⟩ := exec_sndWr_advances data hd (by omega)
    obtain ⟨t, hrun, htd, htidx, htfault⟩ := ih hud (by omega)
    exact ⟨t, (runOps_cons_of_next _ hx).trans hrun, htd, by omega, htfault.trans hufault⟩

/-- Settles O26: from an empty store up to 512 writes fit, and a cursor at 512 makes the next one overrun. -/
theorem fiveHundredTwelveWritesFitWithoutADrain : Obligations.FiveHundredTwelveWritesFitWithoutADrain := by
  intro ds s hi hd hlen
  have hzero : s.idx.toNat = 0 := by rw [hi]; rfl
  obtain ⟨t, hrun, htd, hidx, hfault⟩ := runOps_sndWrs hd (by omega : s.idx.toNat + ds.length ≤ 512)
  rw [hzero, Nat.zero_add] at hidx
  exact ⟨t, hrun, hidx, hfault, fun hfull data => execSndWr_overruns data htd (hidx.trans hfull)⟩

end Sys2Proof.Machine
end
